-- ==== Sys2Proof/Word.lean ====
section
/-! DEFINITION. The byte, the one-bit result and the time value. -/

namespace Sys2Proof

/-- A byte is an unsigned 8-bit value; bit 7 is the most significant (rule R13). -/
abbrev Byte := BitVec 8

/-- A one-bit result port (rule R89). -/
abbrev Bit := BitVec 1

/-- A time value: an unsigned TW-bit number, kept as its integer value because TW is a parameter (rules R8, R15). -/
abbrev Time := Nat

end Sys2Proof
end

