-- ==== Sys2Proof/Config.lean ====
section
/-! DEFINITION. The build-time parameters of the block (rules R8 to R12, R46) and the free time values of an unsupplied clock. -/

namespace Sys2Proof

/-- The implementation parameters of rule R8. They are fixed at build time (rule R46). -/
structure Config where
  /-- `MaxPayloadLen` (MP), the largest payload of a packet. -/
  mp : Nat
  /-- `EscapeByte`, the escape marker. -/
  escapeByte : Byte
  /-- `StartByte`, the frame start marker. -/
  startByte : Byte
  /-- `EndByte`, the frame end marker. -/
  endByte : Byte
  /-- `ReceiveTimeoutMs` (TO), in clock units. -/
  timeout : Nat
  /-- `BytesPerServiceTick` (BPT), channel reads per SERVICE. -/
  bpt : Nat
  /-- `N_TX`, the capacity of TXQ in frames. -/
  nTx : Nat
  /-- `N_RX`, the capacity of RXQ in packets. -/
  nRx : Nat
  /-- `ClockPresent`. -/
  clockPresent : Bool
  /-- `TW`, the width of a time value in bits. -/
  tw : Nat
  deriving DecidableEq, Repr

/-- `MaxFrameLen = 2*(MP+1)+4` (rule R8). -/
def Config.maxFrameLen (c : Config) : Nat := 2 * (c.mp + 1) + 4

/-- The set RES of reserved bytes (rule R9). -/
def Config.reserved (c : Config) (b : Byte) : Bool :=
  b == c.escapeByte || b == c.startByte || b == c.endByte

/-- The legal parameter values: the ranges of rule R8, distinct reserved bytes (rule R9), MP at most 124 (rule R10). -/
abbrev Config.Legal (c : Config) : Prop :=
  c.mp ≤ 124 ∧
  (c.escapeByte ≠ c.startByte ∧ c.escapeByte ≠ c.endByte ∧ c.startByte ≠ c.endByte) ∧
  c.timeout < 2 ^ c.tw ∧ 1 ≤ c.bpt ∧
  (1 ≤ c.nTx ∧ c.nTx ≤ 255) ∧ (1 ≤ c.nRx ∧ c.nRx ≤ 255) ∧ 1 ≤ c.tw

/-- The example instance of rule R12. The three reserved bytes are the source's defaults; the rest is no normative
default. DESIGN CHOICE: the model's reset state is built for this instance (log entry 2); statements hold for every
legal configuration. -/
def Config.sample : Config where
  mp := 8
  escapeByte := 0x01#8
  startByte := 0x02#8
  endByte := 0x03#8
  timeout := 100
  bpt := 4
  nTx := 2
  nRx := 2
  clockPresent := true
  tw := 32

/-- The value the clock agent answers when no sample was supplied for that reading: a free value, one for each reading
(any `now` is admitted, 93_implementation_defined.md I6; log entry 5). -/
opaque Config.freeTime : Nat → Time

end Sys2Proof
end

