-- ==== Sys2Proof/Syntax.lean ====
section
/-! DEFINITION. The element types Packet and Frame, the command ports, the opcodes and the instructions: one constructor
of `Instr` for each row of the opcode table (rule R92). -/

namespace Sys2Proof

/-- A packet (rule R39). `data` holds MP bytes; its payload is the first `plen` of them. -/
structure Packet where
  id : Byte
  plen : Byte
  data : List Byte
  deriving DecidableEq, Repr

/-- A frame (rule R40). `bytes` holds MaxFrameLen bytes; its value is the first `length` of them. -/
structure Frame where
  length : Byte
  bytes : List Byte
  deriving DecidableEq, Repr

/-- The payload of a packet, `data[0..plen-1]` (rule R39). -/
def Packet.payload (p : Packet) : List Byte := p.data.take p.plen.toNat

/-- The value of a frame, `bytes[0..length-1]` (rule R40). -/
def Frame.value (f : Frame) : List Byte := f.bytes.take f.length.toNat

/-- The two command ports (rule R91). -/
inductive Port where
  | host
  | test
  deriving DecidableEq, Repr

/-- The operations of the opcode map (rule R92), without their operands. -/
inductive Opcode where
  | nop | send | available | read | service
  | crc8 | crc8Step
  | encode
  | rxStep
  | txqCount | txqPush | txqPop | txqPeek | txqClear
  | rxqCount | rxqPush | rxqPop | rxqPeek | rxqClear
  deriving DecidableEq, Repr

/-- The instructions: each operation with the operands it names (rule R92). -/
inductive Instr where
  /-- NOP (rule R210). -/
  | nop
  /-- SEND id, plen, payload (rule R211). -/
  | send (id plen : Byte) (payload : List Byte)
  /-- AVAILABLE (rule R212). -/
  | available
  /-- READ (rule R213). -/
  | read
  /-- SERVICE (rule R214). -/
  | service
  /-- CRC8 slen, sbytes (rule R114). -/
  | crc8 (slen : Byte) (sbytes : List Byte)
  /-- CRC8_STEP acc, data (rule R115). -/
  | crc8Step (acc data : Byte)
  /-- ENCODE id, plen, payload (rule R129). -/
  | encode (id plen : Byte) (payload : List Byte)
  /-- RX_STEP data, now (rule R155). -/
  | rxStep (data : Byte) (now : Time)
  /-- TXQ.COUNT (rule R188). -/
  | txqCount
  /-- TXQ.PUSH item_frame (rule R189). -/
  | txqPush (item : Frame)
  /-- TXQ.POP (rule R190). -/
  | txqPop
  /-- TXQ.PEEK (rule R191). -/
  | txqPeek
  /-- TXQ.CLEAR (rule R192). -/
  | txqClear
  /-- RXQ.COUNT (rule R193). -/
  | rxqCount
  /-- RXQ.PUSH item_packet (rule R194). -/
  | rxqPush (item : Packet)
  /-- RXQ.POP (rule R195). -/
  | rxqPop
  /-- RXQ.PEEK (rule R196). -/
  | rxqPeek
  /-- RXQ.CLEAR (rule R197). -/
  | rxqClear
  deriving DecidableEq, Repr

/-- The operation of an instruction. -/
def Instr.opcode : Instr → Opcode
  | .nop => .nop
  | .send _ _ _ => .send
  | .available => .available
  | .read => .read
  | .service => .service
  | .crc8 _ _ => .crc8
  | .crc8Step _ _ => .crc8Step
  | .encode _ _ _ => .encode
  | .rxStep _ _ => .rxStep
  | .txqCount => .txqCount
  | .txqPush _ => .txqPush
  | .txqPop => .txqPop
  | .txqPeek => .txqPeek
  | .txqClear => .txqClear
  | .rxqCount => .rxqCount
  | .rxqPush _ => .rxqPush
  | .rxqPop => .rxqPop
  | .rxqPeek => .rxqPeek
  | .rxqClear => .rxqClear

/-- The operand ports of rule R89. Every command presents all of them; an operation ignores those it does not name. -/
structure OperandPorts where
  id : Byte
  plen : Byte
  payload : List Byte
  data : Byte
  now : Time
  acc : Byte
  slen : Byte
  sbytes : List Byte
  itemFrame : Frame
  itemPacket : Packet
  deriving DecidableEq, Repr

/-- A command: an opcode presented on a port, with the values on the operand ports (rules R89, R91). -/
structure Command where
  port : Port
  op : Byte
  operands : OperandPorts
  deriving DecidableEq, Repr

end Sys2Proof
end

