-- ==== Sys2Proof/WellFormed.lean ====
section
/-! DEFINITION. When an operand has the width of the port that carries it (rule R89). -/

namespace Sys2Proof

/-- The bytes of a packet fill its data field (rule R39). -/
abbrev Packet.Fits (cfg : Config) (p : Packet) : Prop := p.data.length = cfg.mp

/-- The bytes of a frame fill its bytes field (rule R40). -/
abbrev Frame.Fits (cfg : Config) (f : Frame) : Prop := f.bytes.length = cfg.maxFrameLen

/-- A packet of rule R39: its data field is full and `plen` is in 0..MP. -/
abbrev Packet.Ok (cfg : Config) (p : Packet) : Prop := p.Fits cfg ∧ p.plen.toNat ≤ cfg.mp

/-- A frame of rule R40: its bytes field is full and `length` is in 0..MaxFrameLen. -/
abbrev Frame.Ok (cfg : Config) (f : Frame) : Prop := f.Fits cfg ∧ f.length.toNat ≤ cfg.maxFrameLen

/-- Every operand has its port's width: MP payload bytes, 255 sequence bytes, a TW-bit time, a full frame or packet.
Each checks what a port of rule R89 can carry; an out-of-range `length` or `plen` fits its port (rule R94). -/
def Instr.wellFormed (cfg : Config) : Instr → Bool
  | .nop => true
  | .send _ _ payload => payload.length == cfg.mp
  | .available => true
  | .read => true
  | .service => true
  | .crc8 _ sbytes => sbytes.length == 255
  | .crc8Step _ _ => true
  | .encode _ _ payload => payload.length == cfg.mp
  | .rxStep _ now => decide (now < 2 ^ cfg.tw)
  | .txqCount => true
  | .txqPush item => decide (item.Fits cfg)
  | .txqPop => true
  | .txqPeek => true
  | .txqClear => true
  | .rxqCount => true
  | .rxqPush item => decide (item.Fits cfg)
  | .rxqPop => true
  | .rxqPeek => true
  | .rxqClear => true

end Sys2Proof
end

