-- ==== Sys2Proof/Decode.lean ====
section
/-! DEFINITION. The command decoder (rules R90 to R95), total on every command and rejecting by name; the encoder; the
assembler's commands and pseudo-instructions (rules R97, R98). -/

namespace Sys2Proof

/-- The `n` bytes a list of bytes presents on an n-byte port: its first `n` bytes, and 0x00 on the ports it leaves
undriven. A list of length `n` is unchanged. DESIGN CHOICE for other lists, which no n-byte port carries (log entry 6). -/
def fitBytes : Nat → List Byte → List Byte
  | 0, _ => []
  | n + 1, [] => 0x00#8 :: fitBytes n []
  | n + 1, b :: bytes => b :: fitBytes n bytes

/-! ## Opcode fields and the opcode map -/

/-- `unit = op[7:4]` (rule R90). -/
def unitOf (op : Byte) : BitVec 4 := op.extractLsb' 4 4

/-- `fn = op[3:0]` (rule R90). -/
def fnOf (op : Byte) : BitVec 4 := op.extractLsb' 0 4

/-- Which units a port accepts: the host port unit 0x0, the test port units 0x1 to 0x5 (rule R91). -/
def Port.accepts : Port → BitVec 4 → Bool
  | .host, u => u == 0x0#4
  | .test, u => decide (1 ≤ u.toNat ∧ u.toNat ≤ 5)

/-- One row of the opcode map: all 8 bits are matched (rule R92). -/
structure OpRow where
  op : Byte
  opcode : Opcode
  deriving DecidableEq, Repr

/-- The rows of unit 0x0, the packet engine (rule R92). -/
def engineRows : List OpRow :=
  [⟨0x00#8, .nop⟩, ⟨0x01#8, .send⟩, ⟨0x02#8, .available⟩, ⟨0x03#8, .read⟩, ⟨0x04#8, .service⟩]

/-- The rows of units 0x1 to 0x3: CRC-8 generator, byte-stuffer, deframer (rule R92). -/
def codecRows : List OpRow :=
  [⟨0x10#8, .crc8⟩, ⟨0x11#8, .crc8Step⟩, ⟨0x20#8, .encode⟩, ⟨0x30#8, .rxStep⟩]

/-- The rows of units 0x4 and 0x5, the two FIFOs (rule R92). -/
def fifoRows : List OpRow :=
  [⟨0x40#8, .txqCount⟩, ⟨0x41#8, .txqPush⟩, ⟨0x42#8, .txqPop⟩, ⟨0x43#8, .txqPeek⟩, ⟨0x44#8, .txqClear⟩] ++
  [⟨0x50#8, .rxqCount⟩, ⟨0x51#8, .rxqPush⟩, ⟨0x52#8, .rxqPop⟩, ⟨0x53#8, .rxqPeek⟩, ⟨0x54#8, .rxqClear⟩]

/-- The opcode map of rule R92. -/
def opTable : List OpRow := engineRows ++ codecRows ++ fifoRows

/-- Why a command is no instruction (rules R93, R233). Both are the illegal command of rule R233. -/
inductive Reject where
  /-- The opcode is in no row of rule R92. -/
  | reservedOpcode
  /-- The opcode is in the map, and the port does not accept its unit (rule R91). -/
  | wrongPort
  deriving DecidableEq, Repr

/-- The operation of an opcode byte on a port, or why it is illegal (rules R91 to R93). -/
def decodeOpcode (port : Port) (op : Byte) : Except Reject Opcode :=
  match opTable.find? (fun row => row.op == op) with
  | none => .error .reservedOpcode
  | some row => if port.accepts (unitOf op) then .ok row.opcode else .error .wrongPort

/-! ## Operand assembly -/

/-- The Frame operand port: MaxFrameLen bytes (rules R40, R89). -/
def portFrame (cfg : Config) (f : Frame) : Frame := { f with bytes := fitBytes cfg.maxFrameLen f.bytes }

/-- The Packet operand port: MP bytes (rules R39, R89). -/
def portPacket (cfg : Config) (p : Packet) : Packet := { p with data := fitBytes cfg.mp p.data }

/-- The time operand port: an unsigned TW-bit value (rule R95). -/
def portTime (cfg : Config) (t : Time) : Time := t % 2 ^ cfg.tw

/-- The instruction of an operation, with the operands it names read from its ports at their widths (rules R89, R95). -/
def withOperands (cfg : Config) (v : OperandPorts) : Opcode → Instr
  | .nop => .nop
  | .send => .send v.id v.plen (fitBytes cfg.mp v.payload)
  | .available => .available
  | .read => .read
  | .service => .service
  | .crc8 => .crc8 v.slen (fitBytes 255 v.sbytes)
  | .crc8Step => .crc8Step v.acc v.data
  | .encode => .encode v.id v.plen (fitBytes cfg.mp v.payload)
  | .rxStep => .rxStep v.data (portTime cfg v.now)
  | .txqCount => .txqCount
  | .txqPush => .txqPush (portFrame cfg v.itemFrame)
  | .txqPop => .txqPop
  | .txqPeek => .txqPeek
  | .txqClear => .txqClear
  | .rxqCount => .rxqCount
  | .rxqPush => .rxqPush (portPacket cfg v.itemPacket)
  | .rxqPop => .rxqPop
  | .rxqPeek => .rxqPeek
  | .rxqClear => .rxqClear

/-- The decoder. The opcode is judged before any operand is examined (rule R235 (d)). -/
def decode (cfg : Config) (c : Command) : Except Reject Instr :=
  match decodeOpcode c.port c.op with
  | .ok k => .ok (withOperands cfg c.operands k)
  | .error r => .error r

/-! ## The encoder -/

/-- Operand ports with nothing driven on them: every port 0. -/
def OperandPorts.idle : OperandPorts where
  id := 0#8
  plen := 0#8
  payload := []
  data := 0#8
  now := 0
  acc := 0#8
  slen := 0#8
  sbytes := []
  itemFrame := ⟨0#8, []⟩
  itemPacket := ⟨0#8, 0#8, []⟩

/-- The opcode byte of an operation: `op[7:4]` is its unit and `op[3:0]` its fn (rules R90, R92). -/
def opByte : Opcode → Byte
  | .nop => 0x0#4 ++ 0x0#4
  | .send => 0x0#4 ++ 0x1#4
  | .available => 0x0#4 ++ 0x2#4
  | .read => 0x0#4 ++ 0x3#4
  | .service => 0x0#4 ++ 0x4#4
  | .crc8 => 0x1#4 ++ 0x0#4
  | .crc8Step => 0x1#4 ++ 0x1#4
  | .encode => 0x2#4 ++ 0x0#4
  | .rxStep => 0x3#4 ++ 0x0#4
  | .txqCount => 0x4#4 ++ 0x0#4
  | .txqPush => 0x4#4 ++ 0x1#4
  | .txqPop => 0x4#4 ++ 0x2#4
  | .txqPeek => 0x4#4 ++ 0x3#4
  | .txqClear => 0x4#4 ++ 0x4#4
  | .rxqCount => 0x5#4 ++ 0x0#4
  | .rxqPush => 0x5#4 ++ 0x1#4
  | .rxqPop => 0x5#4 ++ 0x2#4
  | .rxqPeek => 0x5#4 ++ 0x3#4
  | .rxqClear => 0x5#4 ++ 0x4#4

/-- The port that accepts an operation: the host port for the packet engine, else the test port (rule R92). -/
def portOf : Opcode → Port
  | .nop | .send | .available | .read | .service => .host
  | .crc8 | .crc8Step | .encode | .rxStep => .test
  | .txqCount | .txqPush | .txqPop | .txqPeek | .txqClear => .test
  | .rxqCount | .rxqPush | .rxqPop | .rxqPeek | .rxqClear => .test

/-- The operand ports an instruction drives. -/
def operandsOf : Instr → OperandPorts
  | .send id plen payload => { OperandPorts.idle with id := id, plen := plen, payload := payload }
  | .crc8 slen sbytes => { OperandPorts.idle with slen := slen, sbytes := sbytes }
  | .crc8Step acc data => { OperandPorts.idle with acc := acc, data := data }
  | .encode id plen payload => { OperandPorts.idle with id := id, plen := plen, payload := payload }
  | .rxStep data now => { OperandPorts.idle with data := data, now := now }
  | .txqPush item => { OperandPorts.idle with itemFrame := item }
  | .rxqPush item => { OperandPorts.idle with itemPacket := item }
  | .nop | .available | .read | .service => OperandPorts.idle
  | .txqCount | .txqPop | .txqPeek | .txqClear => OperandPorts.idle
  | .rxqCount | .rxqPop | .rxqPeek | .rxqClear => OperandPorts.idle

/-- The command of an instruction: its opcode byte on its port, its operands on theirs (rules R89, R92). -/
def encode (i : Instr) : Command where
  port := portOf i.opcode
  op := opByte i.opcode
  operands := operandsOf i

/-! ## Words of the opcode table -/

/-- The command an opcode-table word stands for: its low 8 bits as the opcode, no operand driven, on the port that
accepts its unit (the test port for a reserved unit). -/
def tableCommand (nbits w : Nat) : Command :=
  let op : Byte := BitVec.ofNat 8 (w % 2 ^ nbits)
  { port := if Port.host.accepts (unitOf op) then .host else .test, op := op, operands := OperandPorts.idle }

/-- The instruction the decoder reads from an opcode-table word. -/
def decodeTableWord (nbits w : Nat) : Option Instr :=
  match decode Config.sample (tableCommand nbits w) with
  | .ok i => some i
  | .error _ => none

/-! ## Assembler commands and pseudo-instructions -/

/-- The length operand of a byte list: the number of its bytes (rule R97). DESIGN CHOICE: the port has 8 bits, and rule R97
gives no value for a list of 256 or more bytes; here its length is taken modulo 256 (log entry 16). -/
def asmLength (bytes : List Byte) : Byte := BitVec.ofNat 8 bytes.length

/-- `SEND id, [bytes]`: plen is the number of bytes, modulo 256 (rule R97; log entry 16). -/
def asmSend (id : Byte) (bytes : List Byte) : Command :=
  encode (.send id (asmLength bytes) bytes)

/-- `ENCODE id, [bytes]`: plen is the number of bytes, modulo 256 (rule R97; log entry 16). -/
def asmEncode (id : Byte) (bytes : List Byte) : Command :=
  encode (.encode id (asmLength bytes) bytes)

/-- `CRC8 [bytes]`: slen is the number of bytes, modulo 256 (rule R97; log entry 16). -/
def asmCrc8 (bytes : List Byte) : Command :=
  encode (.crc8 (asmLength bytes) bytes)

/-- `TXQ.PUSH` of a frame operand `(len, [bytes])` (rule R97). -/
def asmTxqPush (len : Byte) (bytes : List Byte) : Command := encode (.txqPush ⟨len, bytes⟩)

/-- `RXQ.PUSH` of a packet operand `(id, [payload])`: plen is the number of bytes, modulo 256 (rule R97; log entry 16). -/
def asmRxqPush (id : Byte) (bytes : List Byte) : Command :=
  encode (.rxqPush ⟨id, asmLength bytes, bytes⟩)

/-- `FEED [b0, ..., bk] @ t`: one RX_STEP for each byte, in order (rule R98). -/
def asmFeed (bytes : List Byte) (t : Time) : List Command := bytes.map fun b => encode (.rxStep b t)

/-- `TICK n`: n copies of SERVICE (rule R98). -/
def asmTick (n : Nat) : List Command := List.replicate n (encode .service)

end Sys2Proof
end

