-- ==== Sys2Proof/Machine/State.lean ====
section
/-! DEFINITION. The state of the block and of the agents around it (rules R30 to R51, R7), the reasons a step can stop,
and the state after reset (rule R50). -/

namespace Sys2Proof.Machine

/-- The receive parse state (rules R32 to R38). -/
@[ext]
structure Deframer where
  /-- `BC`, the byte counter, which also encodes the state: 0 Idle, 1 Length, 2 Id, 3 or more Payload (rules R32, R141). -/
  bc : Byte
  /-- `DLEN`, the declared frame length (rule R33). -/
  dlen : Byte
  /-- `DID`, the declared packet id (rule R34). -/
  did : Byte
  /-- `ESC`, the escape-pending flag (rule R35). -/
  esc : Bool
  /-- `PBUF[0..MP]`, the payload buffer (rule R36). -/
  pbuf : List Byte
  /-- `PIDX`, the payload write index (rule R37). -/
  pidx : Byte
  /-- `TSTART`, the frame start time, a TW-bit value (rule R38). -/
  tstart : Time
  deriving DecidableEq, Repr

/-- A FIFO instance's registers (rule R41). The indices are integers in 0..N, because their width depends on N. -/
@[ext]
structure Fifo (α : Type) where
  /-- `SLOT[0..N]`. -/
  slots : List α
  /-- `FRONT`, the slot of the oldest element. -/
  front : Nat
  /-- `BACK`, the slot the next push writes. -/
  back : Nat
  /-- `COUNT`, the number of elements held. -/
  count : Nat
  deriving DecidableEq, Repr

/-- The trace events of rule R231. They are not architectural (rule R232). -/
inductive TraceEvent where
  | noise | frameOk | dropLen | dropCrc | dropNoCrc | dropOverflow | dropGuardLen | dropTimeout
  | txTooLong | txFullDrop | rxEvict | popEmpty | illegalCmd
  deriving DecidableEq, Repr

/-- The result ports of one operation (rule R89). -/
structure Results where
  /-- 0 = OK, 1 = ILLEGAL. -/
  status : Bit
  ok : Bit
  bool : Bit
  byte : Byte
  count : Byte
  frame : Frame
  packet : Packet
  deriving DecidableEq, Repr

/-- What the agents around the block do to it, one at a time (rules R7, R70, R260). -/
inductive Input where
  /-- The host issues a command on a port (rules R7, R91). -/
  | command (c : Command)
  /-- Reset (rule R260). -/
  | reset
  /-- The channel delivers bytes: they wait until SERVICE reads them (rules R71, R234). -/
  | channel (bytes : List Byte)
  /-- The clock supplies the values its next readings answer (rule R239). -/
  | clock (samples : List Time)
  deriving DecidableEq, Repr

/-- The whole machine: the block's registers, its build-time constants, and what the model keeps of its agents. -/
@[ext]
structure State where
  /-- The build-time constants (rules R8, R46): the model's parameter, written by no step. -/
  cfg : Config
  /-- The receive parse state (rule R30). -/
  rx : Deframer
  /-- TXQ, the send queue of encoded frames (rules R30, R41). -/
  txq : Fifo Frame
  /-- RXQ, the receive queue of decoded packets (rules R30, R41). -/
  rxq : Fifo Packet
  /-- The channel's input stream: the bytes that wait to be read, in stream order (rule R71). -/
  chIn : List Byte
  /-- The channel's output: one entry for each ChWrite, oldest first (rules R72, R240). -/
  chOut : List (List Byte)
  /-- The values the next clock readings answer, in order (rule R239). -/
  clock : List Time
  /-- How many clock readings had no supplied value: the index of the free values (log entry 5). The model's own. -/
  drawn : Nat
  /-- What the agents do next, oldest first (rule R70). The model's own. -/
  inputs : List Input
  /-- The result ports of the last command (rules R48, R89). No rule reads it. The model's own; before the first command
  its value is a DESIGN CHOICE (log entry 7). -/
  out : Results
  /-- The trace events so far, oldest first (rule R231). No rule reads it (rule R232). The model's own. -/
  trace : List TraceEvent
  deriving DecidableEq, Repr

/-- Why the machine stops with a fault: the precondition of a storage primitive fails, which rule R61 lets a model make
a fault. No state that meets the machine's invariant reaches one. Each is safe: the machine stops where it has no meaning. -/
inductive Fault where
  /-- Raised by `BufWrite(i, v)` with i beyond PBUF (rule R61). Safe. -/
  | bufWriteOutOfRange
  /-- Raised by a read of `PBUF[i]` with i beyond PBUF (rules R36, R61). Safe. -/
  | bufReadOutOfRange
  /-- Raised by `SlotWrite(Q, i, e)` with i beyond the slot array (rule R61). Safe. -/
  | slotWriteOutOfRange
  /-- Raised by `SlotRead(Q, i)` with i beyond the slot array (rule R61). Safe. -/
  | slotReadOutOfRange
  deriving DecidableEq, Repr

/-- Why the model has no meaning for a step. -/
inductive Refusal where
  /-- Raised by an arm of `exec` whose instruction has no meaning yet. No arm raises it. Safe. -/
  | notModelled (mnemonic : String)
  /-- Raised by `step` where the constants are no legal configuration, which is no instance of the block
  (rule R9; 93_implementation_defined.md I12). Safe. -/
  | illegalConfiguration
  deriving DecidableEq, Repr

/-- The default Packet: id 0, plen 0, data all 0x00 (rule R42). -/
def defaultPacket (cfg : Config) : Packet := ⟨0#8, 0#8, List.replicate cfg.mp 0#8⟩

/-- The default Frame: length 0, bytes all 0x00 (rule R42). -/
def defaultFrame (cfg : Config) : Frame := ⟨0#8, List.replicate cfg.maxFrameLen 0#8⟩

/-- What the result ports an operation does not name return, with `status = 0` (rule R89). -/
def quietResults (cfg : Config) : Results where
  status := 0#1
  ok := 0#1
  bool := 0#1
  byte := 0#8
  count := 0#8
  frame := defaultFrame cfg
  packet := defaultPacket cfg

/-- The parse state after reset: BC = 0 (rule R50). DESIGN CHOICE: DLEN, DID, ESC, PIDX, TSTART and PBUF, which the spec
leaves unspecified, are 0 (log entry 1). -/
def Deframer.reset (cfg : Config) : Deframer where
  bc := 0#8
  dlen := 0#8
  did := 0#8
  esc := false
  pbuf := List.replicate (cfg.mp + 1) 0#8
  pidx := 0#8
  tstart := 0

/-- A FIFO of capacity `n` after reset: COUNT, FRONT and BACK are 0 (rule R50). DESIGN CHOICE: its slots, which the spec
leaves unspecified, hold the default element (log entry 1). -/
def Fifo.reset {α : Type} (n : Nat) (default : α) : Fifo α where
  slots := List.replicate (n + 1) default
  front := 0
  back := 0
  count := 0

/-- The machine right after reset, for a given configuration (rules R50, R260, R273), with no agent having acted. DESIGN
CHOICE: the result ports hold 0 and the default elements, and the trace is empty, though results belong to one operation
and none was issued (rule R48; log entry 7). -/
def State.resetWith (cfg : Config) : State where
  cfg := cfg
  rx := Deframer.reset cfg
  txq := Fifo.reset cfg.nTx (defaultFrame cfg)
  rxq := Fifo.reset cfg.nRx (defaultPacket cfg)
  chIn := []
  chOut := []
  clock := []
  drawn := 0
  inputs := []
  out := quietResults cfg
  trace := []

/-- The machine right after reset. DESIGN CHOICE: its build-time constants are the example instance's (log entry 2). -/
def State.reset : State := State.resetWith Config.sample

end Sys2Proof.Machine
end

