-- ==== Sys2Proof/Machine/Ops.lean ====
section
/-! DEFINITION. The shared operations of the machine: outcomes in sequence, the state updates, trace events, the storage
primitives, the channel and clock primitives (rule R16), the response to an illegal command (rule R233), and reset
(rule R260). -/

namespace Sys2Proof.Machine

/-- Run `k` on the value of `o`, or stop where `o` stops (rule R17). -/
def bindNext {α β : Type} (o : Host.Outcome α Fault Refusal) (k : α → Host.Outcome β Fault Refusal) :
    Host.Outcome β Fault Refusal :=
  match o with
  | .next a => k a
  | .fault f => .fault f
  | .refused r => .refused r

/-! ## State updates -/

/-- Replace the parse state. -/
def State.withRx (s : State) (rx : Deframer) : State := { s with rx := rx }

/-- Replace TXQ. -/
def State.withTxq (s : State) (q : Fifo Frame) : State := { s with txq := q }

/-- Replace RXQ. -/
def State.withRxq (s : State) (q : Fifo Packet) : State := { s with rxq := q }

/-- Replace the channel's input stream. -/
def State.withChIn (s : State) (bytes : List Byte) : State := { s with chIn := bytes }

/-- Replace the channel's output. -/
def State.withChOut (s : State) (writes : List (List Byte)) : State := { s with chOut := writes }

/-- Replace the clock's supplied samples and the index of the free ones. -/
def State.withClock (s : State) (samples : List Time) (drawn : Nat) : State :=
  { s with clock := samples, drawn := drawn }

/-- Replace the agents' pending inputs. -/
def State.withInputs (s : State) (inputs : List Input) : State := { s with inputs := inputs }

/-- `Emit`, for a list of events in order (rules R16, R232). -/
def State.emits (s : State) (evs : List TraceEvent) : State := { s with trace := s.trace ++ evs }

/-- `Emit(ev)` (rule R16). -/
def State.emit (s : State) (ev : TraceEvent) : State := s.emits [ev]

/-- Drive the result ports: the end of an operation (rules R17, R89). -/
def State.respond (s : State) (r : Results) : State := { s with out := r }

/-- The result ports of an operation that names only `status`, with `status = 0` (rule R89). -/
def State.done (s : State) : State := s.respond (quietResults s.cfg)

/-! ## Storage primitives -/

/-- `BufWrite(i, v)`: PBUF[i] <- v, for an i within PBUF (rule R61). -/
def bufWrite (i : Nat) (v : Byte) (pbuf : List Byte) : Host.Outcome (List Byte) Fault Refusal :=
  if i < pbuf.length then .next (pbuf.set i v) else .fault .bufWriteOutOfRange

/-- The read of `PBUF[i]` (rules R36, R149). -/
def bufRead (i : Nat) (pbuf : List Byte) : Host.Outcome Byte Fault Refusal :=
  match pbuf[i]? with
  | some v => .next v
  | none => .fault .bufReadOutOfRange

/-- `SlotWrite(Q, i, e)`: the slot array with slot i holding e, for an i within it (rule R61). -/
def slotWrite {α : Type} (i : Nat) (e : α) (slots : List α) : Host.Outcome (List α) Fault Refusal :=
  if i < slots.length then .next (slots.set i e) else .fault .slotWriteOutOfRange

/-- `SlotRead(Q, i)` (rule R61). -/
def slotRead {α : Type} (i : Nat) (slots : List α) : Host.Outcome α Fault Refusal :=
  match slots[i]? with
  | some e => .next e
  | none => .fault .slotReadOutOfRange

/-! ## Channel and clock -/

/-- `ChHasByte()`: whether a byte waits in the channel (rule R240). -/
def chHasByte (s : State) : Bool := !s.chIn.isEmpty

/-- `ChWrite(s, n)`: append one whole write to the channel output (rules R66, R216, R240). -/
def chWrite (bytes : List Byte) (s : State) : State := s.withChOut (s.chOut ++ [bytes])

/-- `Now()`: the clock's next value, TW bits wide, and the state after the reading. A reading with no supplied sample
answers a free value (rule R239; 93_implementation_defined.md I6; log entry 5). -/
def clockNow (s : State) : Time × State :=
  match s.clock with
  | t :: ts => (t % 2 ^ s.cfg.tw, s.withClock ts s.drawn)
  | [] => (Config.freeTime s.drawn % 2 ^ s.cfg.tw, s.withClock [] (s.drawn + 1))

/-- The `now` of a byte SERVICE reads: `Now()` if ClockPresent, else 0 (rules R214, R217). -/
def sampleNow (s : State) : Time × State :=
  if s.cfg.clockPresent then clockNow s else (0, s)

/-! ## Illegal commands and reset -/

/-- `IllegalCommand()`: the block has no traps (rules R230, R236); an illegal command changes no state and returns
`status = 1` with 0 or the default element on every other port (rule R233). -/
def illegalCommand (s : State) : State :=
  (s.emit .illegalCmd).respond { quietResults s.cfg with status := 1#1 }

/-- Reset, an input event: the parse state and the FIFOs take their reset values; the constants, the channel and the
clock are untouched (rule R260). -/
def resetBlock (s : State) : State :=
  ((s.withRx (Deframer.reset s.cfg)).withTxq (Fifo.reset s.cfg.nTx (defaultFrame s.cfg))).withRxq
    (Fifo.reset s.cfg.nRx (defaultPacket s.cfg))

end Sys2Proof.Machine
end

