-- ==== Sys2Proof/Machine/Operands.lean ====
section
/-! DEFINITION. How an operation reads its operands and forms its count result (rule R95). -/

namespace Sys2Proof.Machine

/-- The sequence `bytes[0..n-1]` of a length operand and a bytes operand (rule R95). Where n exceeds the port (SEND and
ENCODE with plen > MP) the sequence has length n still, and the operation refuses it without reading its bytes (rule R129). -/
def operandSeq (n : Byte) (bytes : List Byte) : List Byte := fitBytes n.toNat bytes

/-- The `count` result, `zext_8(Q.COUNT)` (rule R95). -/
def countResult (count : Nat) : Byte := BitVec.ofNat 8 count

/-- A one-bit result of a condition (rule R89). -/
def bitOf (b : Bool) : Bit := if b then 1#1 else 0#1

end Sys2Proof.Machine
end

