-- ==== Sys2Proof/Machine/Fifo.lean ====
section
/-! DEFINITION. The bounded circular FIFOs TXQ and RXQ (rules R180 to R200): the generic operations on an instance of
capacity n, their use on each instance, and the ten FIFO operations of the test port. -/

namespace Sys2Proof.Machine

/-! ## Generic operations -/

/-- The next index, modulo N+1 (rule R180). -/
def nextIndex (n i : Nat) : Nat := (i + 1) % (n + 1)

/-- `contents(Q)`: the elements held, oldest first (rules R43, R181). -/
def Fifo.contents {α : Type} (n : Nat) (q : Fifo α) : List α :=
  (List.range q.count).filterMap fun k => q.slots[(q.front + k) % (n + 1)]?

/-- Store at BACK and advance it: the push on a FIFO with room (rules R183, R184). -/
def fifoInsert {α : Type} (n : Nat) (x : α) (q : Fifo α) : Host.Outcome (Fifo α) Fault Refusal :=
  bindNext (slotWrite q.back x q.slots) fun slots =>
    .next { q with slots := slots, back := nextIndex n q.back, count := q.count + 1 }

/-- Discard the oldest: the first part of a full PushEvict (rule R184). -/
def fifoDropOldest {α : Type} (n : Nat) (q : Fifo α) : Fifo α :=
  { q with front := nextIndex n q.front, count := q.count - 1 }

/-- `PushDrop(Q, x)`, drop-newest (rule R183), with the events it emits. -/
def fifoPushDrop {α : Type} (n : Nat) (x : α) (q : Fifo α) :
    Host.Outcome (Fifo α × List TraceEvent) Fault Refusal :=
  if q.count = n then .next (q, [.txFullDrop])
  else bindNext (fifoInsert n x q) fun q' => .next (q', [])

/-- `PushEvict(Q, x)`, evict-oldest (rule R184), with the events it emits. -/
def fifoPushEvict {α : Type} (n : Nat) (x : α) (q : Fifo α) :
    Host.Outcome (Fifo α × List TraceEvent) Fault Refusal :=
  if q.count = n then bindNext (fifoInsert n x (fifoDropOldest n q)) fun q' => .next (q', [.rxEvict])
  else bindNext (fifoInsert n x q) fun q' => .next (q', [])

/-- What a pop gives: the element, the FIFO after it and the events it emits. -/
structure Popped (α : Type) where
  item : α
  fifo : Fifo α
  events : List TraceEvent

/-- `Pop(Q)` (rule R185). On an empty instance the rules fix the default element (90_conflicts.md C5; log entry 4). -/
def fifoPop {α : Type} (n : Nat) (default : α) (q : Fifo α) : Host.Outcome (Popped α) Fault Refusal :=
  if q.count = 0 then .next ⟨default, q, [.popEmpty]⟩
  else bindNext (slotRead q.front q.slots) fun x => .next ⟨x, fifoDropOldest n q, []⟩

/-- `Peek(Q)` (rule R186). On an empty instance the rules fix the default element (log entry 4). -/
def fifoPeek {α : Type} (default : α) (q : Fifo α) : Host.Outcome α Fault Refusal :=
  if q.count = 0 then .next default else slotRead q.front q.slots

/-- `Clear(Q)`: the slots are not written (rule R187). -/
def fifoClear {α : Type} (q : Fifo α) : Fifo α := { q with count := 0, front := 0, back := 0 }

/-! ## The two instances -/

/-- PushDrop on TXQ (rules R41, R183). -/
def txqPushDrop (x : Frame) (s : State) : Host.Outcome State Fault Refusal :=
  bindNext (fifoPushDrop s.cfg.nTx x s.txq) fun r => .next ((s.withTxq r.1).emits r.2)

/-- PushEvict on RXQ (rules R41, R184). -/
def rxqPushEvict (x : Packet) (s : State) : Host.Outcome State Fault Refusal :=
  bindNext (fifoPushEvict s.cfg.nRx x s.rxq) fun r => .next ((s.withRxq r.1).emits r.2)

/-- Pop on TXQ: the frame, and the state after it (rule R185). -/
def txqTake (s : State) : Host.Outcome (Frame × State) Fault Refusal :=
  bindNext (fifoPop s.cfg.nTx (defaultFrame s.cfg) s.txq) fun r =>
    .next (r.item, (s.withTxq r.fifo).emits r.events)

/-- Pop on RXQ: the packet, and the state after it (rule R185). -/
def rxqTake (s : State) : Host.Outcome (Packet × State) Fault Refusal :=
  bindNext (fifoPop s.cfg.nRx (defaultPacket s.cfg) s.rxq) fun r =>
    .next (r.item, (s.withRxq r.fifo).emits r.events)

/-- Pop on RXQ with the packet on its result port: what READ and RXQ.POP share (rules R195, R213). -/
def rxqTakeResult (s : State) : Host.Outcome State Fault Refusal :=
  bindNext (rxqTake s) fun r => .next (r.2.respond { quietResults s.cfg with packet := r.1 })

/-! ## TXQ operations -/

/-- TXQ.COUNT (rule R188). -/
def execTxqCount (s : State) : Host.Outcome State Fault Refusal :=
  .next (s.respond { quietResults s.cfg with count := countResult s.txq.count })

/-- TXQ.PUSH (rule R189): a length above MaxFrameLen is an illegal command (rule R94). -/
def execTxqPush (item : Frame) (s : State) : Host.Outcome State Fault Refusal :=
  if item.length.toNat > s.cfg.maxFrameLen then .next (illegalCommand s)
  else bindNext (txqPushDrop item s) fun s' => .next s'.done

/-- TXQ.POP (rule R190). -/
def execTxqPop (s : State) : Host.Outcome State Fault Refusal :=
  bindNext (txqTake s) fun r => .next (r.2.respond { quietResults s.cfg with frame := r.1 })

/-- TXQ.PEEK (rule R191). -/
def execTxqPeek (s : State) : Host.Outcome State Fault Refusal :=
  bindNext (fifoPeek (defaultFrame s.cfg) s.txq) fun f =>
    .next (s.respond { quietResults s.cfg with frame := f })

/-- TXQ.CLEAR (rule R192). -/
def execTxqClear (s : State) : Host.Outcome State Fault Refusal :=
  .next (s.withTxq (fifoClear s.txq)).done

/-! ## RXQ operations -/

/-- RXQ.COUNT (rule R193). -/
def execRxqCount (s : State) : Host.Outcome State Fault Refusal :=
  .next (s.respond { quietResults s.cfg with count := countResult s.rxq.count })

/-- RXQ.PUSH (rule R194): a plen above MP is an illegal command (rule R94). -/
def execRxqPush (item : Packet) (s : State) : Host.Outcome State Fault Refusal :=
  if item.plen.toNat > s.cfg.mp then .next (illegalCommand s)
  else bindNext (rxqPushEvict item s) fun s' => .next s'.done

/-- RXQ.POP (rule R195). -/
def execRxqPop (s : State) : Host.Outcome State Fault Refusal := rxqTakeResult s

/-- RXQ.PEEK (rule R196). -/
def execRxqPeek (s : State) : Host.Outcome State Fault Refusal :=
  bindNext (fifoPeek (defaultPacket s.cfg) s.rxq) fun p =>
    .next (s.respond { quietResults s.cfg with packet := p })

/-- RXQ.CLEAR (rule R197). -/
def execRxqClear (s : State) : Host.Outcome State Fault Refusal :=
  .next (s.withRxq (fifoClear s.rxq)).done

end Sys2Proof.Machine
end

