-- ==== Sys2Proof/Machine/Crc8.lean ====
section
/-! DEFINITION. The CRC-8 generator (rules R110 to R117) and its two operations. -/

namespace Sys2Proof.Machine

/-- The feedback step f: shift left, and XOR with 0x07 where bit 7 was set (rule R110). -/
def crcFeedback (c : Byte) : Byte := if c.msb then (c <<< 1) ^^^ 0x07#8 else c <<< 1

/-- f applied n times (rule R110). -/
def crcShift : Nat → Byte → Byte
  | 0, c => c
  | n + 1, c => crcShift n (crcFeedback c)

/-- The CRC-8 table, T[i]: f applied 8 times to i (rules R47, R110). -/
def crcTable (i : Byte) : Byte := crcShift 8 i

/-- One accumulator update, `T[acc XOR b]` (rule R111). -/
def crcUpdate (acc b : Byte) : Byte := crcTable (acc ^^^ b)

/-- `CRC8(s)`: the updates over s from 0x00, with no final XOR (rule R112). -/
def crc8 (s : List Byte) : Byte := s.foldl crcUpdate 0x00#8

/-- The bit-serial form of rule R116: XOR the byte in, then 8 feedback steps. -/
def crc8Serial (s : List Byte) : Byte := s.foldl (fun acc b => crcShift 8 (acc ^^^ b)) 0x00#8

/-- CRC8 (rule R114). -/
def execCrc8 (slen : Byte) (sbytes : List Byte) (s : State) : Host.Outcome State Fault Refusal :=
  .next (s.respond { quietResults s.cfg with byte := crc8 (operandSeq slen sbytes) })

/-- CRC8_STEP (rule R115). -/
def execCrc8Step (acc data : Byte) (s : State) : Host.Outcome State Fault Refusal :=
  .next (s.respond { quietResults s.cfg with byte := crcUpdate acc data })

end Sys2Proof.Machine
end

