-- ==== Sys2Proof/Machine/Flags.lean ====
section
/-! DEFINITION. The stored flag ESC (rules R35, R45) and the conditions the rules compute: the guard (rule R142), the
room check (rule R153), frame validity (rule R149), and "available" (rule R212). -/

namespace Sys2Proof.Machine

/-! ## The stored flag -/

/-- `ESC <- 1`, by an unescaped EscapeByte in the Payload state, which is counted and not stored (rules R35, R147). -/
def Deframer.escapePending (d : Deframer) : Deframer := { d with esc := true, bc := d.bc + 1#8 }

/-- `BC <- 0; ESC <- 0`: the return to Idle of a frame's end and of `Abandon()` (rules R143, R148). -/
def Deframer.idle (d : Deframer) : Deframer := { d with bc := 0#8, esc := false }

/-! ## Computed conditions -/

/-- The deframer is in the Payload state (rule R141). -/
def inPayload (s : State) : Bool := decide (3 ≤ s.rx.bc.toNat)

/-- `LenTrip`: BC exceeds MaxFrameLen, strictly (rule R142). -/
def lenTrip (s : State) : Bool := decide (s.rx.bc.toNat > s.cfg.maxFrameLen)

/-- The elapsed time `(now - TSTART) mod 2^TW` (rules R21, R142). -/
def elapsed (now : Time) (s : State) : Int := ((now : Int) - (s.rx.tstart : Int)) % ((2 ^ s.cfg.tw : Nat) : Int)

/-- `TimedOut(now)`: a clock is present and the elapsed time exceeds ReceiveTimeoutMs, strictly (rule R142). -/
def timedOut (now : Time) (s : State) : Bool :=
  s.cfg.clockPresent && decide (elapsed now s > (s.cfg.timeout : Int))

/-- The guard trips: Payload state, and the frame is too long or timed out (rule R142). -/
def guardTrips (now : Time) (s : State) : Bool := inPayload s && (lenTrip s || timedOut now s)

/-- The room check of a store, `PIDX < MP + 1` (rule R153). -/
def hasRoom (s : State) : Bool := decide (s.rx.pidx.toNat < s.cfg.mp + 1)

/-- The bytes a frame's CRC covers, `PBUF[0..PIDX-2]` (rules R149, R150). -/
def receivedPayload (s : State) : List Byte := s.rx.pbuf.take (s.rx.pidx.toNat - 1)

/-- `BC + 1 = DLEN`, compared as integers (rule R149 (a)). -/
def lengthMatches (s : State) : Bool := decide (s.rx.bc.toNat + 1 = s.rx.dlen.toNat)

/-- `Valid()`: a CRC byte was received, the length matches, and the CRC matches (rule R149). -/
def frameValid (s : State) : Bool :=
  decide (1 ≤ s.rx.pidx.toNat) && lengthMatches s &&
    s.rx.pbuf[s.rx.pidx.toNat - 1]? == some (crc8 (receivedPayload s))

/-- "available": RXQ is not empty (rules R45, R212). -/
def rxAvailable (s : State) : Bool := decide (s.rxq.count > 0)

end Sys2Proof.Machine
end

