-- ==== Sys2Proof/Machine/Deframer.lean ====
section
/-! DEFINITION. The deframer state machine (rules R140 to R162) and its operation RX_STEP. -/

namespace Sys2Proof.Machine

/-- `Abandon()`: back to Idle with nothing delivered (rule R143). -/
def abandon (s : State) : State := s.withRx s.rx.idle

/-- The guard, before the byte is classified: the event of its first tripping condition, then Abandon (rules R142,
R235 (a)). -/
def rxGuard (now : Time) (s : State) : State :=
  if guardTrips now s then abandon (s.emit (if lenTrip s then .dropGuardLen else .dropTimeout)) else s

/-- The Idle rule (rule R144). -/
def idleRule (b : Byte) (now : Time) (s : State) : State :=
  if b = s.cfg.startByte then
    s.withRx { s.rx with
      tstart := if s.cfg.clockPresent then now else 0
      esc := false
      pidx := 0#8
      bc := 1#8 }
  else s.emit .noise

/-- The Length rule (rule R145). -/
def lengthRule (b : Byte) (s : State) : State := s.withRx { s.rx with dlen := b, bc := 2#8 }

/-- The Id rule (rule R146). -/
def idRule (b : Byte) (s : State) : State := s.withRx { s.rx with did := b, bc := 3#8 }

/-- The Payload escape rule (rule R147). -/
def escapeRule (s : State) : State := s.withRx s.rx.escapePending

/-- The packet of a valid frame: DID, and the payload bytes zero-filled to MP (rule R150). -/
def receivedPacket (s : State) : Packet where
  id := s.rx.did
  plen := s.rx.pidx - 1#8
  data := fitBytes s.cfg.mp (receivedPayload s)

/-- `Deliver()`: push the packet into RXQ, evict-oldest (rule R150). -/
def deliver (s : State) : Host.Outcome State Fault Refusal := rxqPushEvict (receivedPacket s) s

/-- The return to Idle at the End byte (rule R148). -/
def closeFrame (s : State) : State := s.withRx s.rx.idle

/-- The Payload end rule: deliver a valid frame, drop another, in the order no CRC, length, CRC (rules R148, R149,
R235 (b)). -/
def endRule (s : State) : Host.Outcome State Fault Refusal :=
  if s.rx.pidx.toNat < 1 then .next (closeFrame (s.emit .dropNoCrc))
  else if !lengthMatches s then .next (closeFrame (s.emit .dropLen))
  else
    bindNext (bufRead (s.rx.pidx.toNat - 1) s.rx.pbuf) fun c =>
      if crc8 (receivedPayload s) = c then
        bindNext (deliver (s.emit .frameOk)) fun s' => .next (closeFrame s')
      else .next (closeFrame (s.emit .dropCrc))

/-- Store a byte at PIDX and count it; ESC is 0 afterwards (rules R151, R152). Without room, the frame is abandoned
and the byte is consumed (rule R153). -/
def storeByte (b : Byte) (s : State) : Host.Outcome State Fault Refusal :=
  if hasRoom s then
    bindNext (bufWrite s.rx.pidx.toNat b s.rx.pbuf) fun pbuf =>
      .next (s.withRx { s.rx with pbuf := pbuf, pidx := s.rx.pidx + 1#8, esc := false, bc := s.rx.bc + 1#8 })
  else .next (abandon (s.emit .dropOverflow))

/-- The Payload data rule, where ESC is 0 (rule R151). -/
def dataRule (b : Byte) (s : State) : Host.Outcome State Fault Refusal := storeByte b s

/-- The Payload literal rule, where ESC is 1 (rule R152). -/
def literalRule (b : Byte) (s : State) : Host.Outcome State Fault Refusal := storeByte b s

/-- The classification of a byte by BC, ESC and its value (rules R155, R156). -/
def classify (b : Byte) (now : Time) (s : State) : Host.Outcome State Fault Refusal :=
  if s.rx.bc = 0#8 then .next (idleRule b now s)
  else if s.rx.bc = 1#8 then .next (lengthRule b s)
  else if s.rx.bc = 2#8 then .next (idRule b s)
  else if s.rx.esc then literalRule b s
  else if b = s.cfg.escapeByte then .next (escapeRule s)
  else if b = s.cfg.endByte then endRule s
  else dataRule b s

/-- `RxStep(b, now)`: the guard, then the classification; the byte that trips the guard is an Idle byte (rules R142, R155). -/
def rxStep (b : Byte) (now : Time) (s : State) : Host.Outcome State Fault Refusal := classify b now (rxGuard now s)

/-- RX_STEP (rule R155). -/
def execRxStep (data : Byte) (now : Time) (s : State) : Host.Outcome State Fault Refusal :=
  bindNext (rxStep data now s) fun s' => .next s'.done

end Sys2Proof.Machine
end

