-- ==== Sys2Proof/Machine/Stuffer.lean ====
section
/-! DEFINITION. The byte-stuffer, which is the frame encoder (rules R120 to R129), and its operation ENCODE. -/

namespace Sys2Proof.Machine

/-- `Stuff`: each reserved byte is preceded by EscapeByte (rule R82). -/
def stuff (cfg : Config) : List Byte → List Byte
  | [] => []
  | y :: s => if cfg.reserved y then cfg.escapeByte :: y :: stuff cfg s else y :: stuff cfg s

/-- `Destuff`: the byte after an EscapeByte is literal, and a dangling EscapeByte is dropped (rule R87). -/
def destuff (cfg : Config) : List Byte → List Byte
  | [] => []
  | [y] => if y = cfg.escapeByte then [] else [y]
  | y :: z :: s => if y = cfg.escapeByte then z :: destuff cfg s else y :: destuff cfg (z :: s)

/-- Steps 1 to 4 of Encode: Start, the placeholder length 0x00, the id raw, the stuffed payload and CRC, End (rule R122). -/
def frameDraft (cfg : Config) (id : Byte) (p : List Byte) : List Byte :=
  [cfg.startByte, 0x00#8, id] ++ stuff cfg (p ++ [crc8 p]) ++ [cfg.endByte]

/-- The frame bytes of rule R122: the placeholder is overwritten by the total length. -/
def frameBytes (cfg : Config) (id : Byte) (p : List Byte) : List Byte :=
  let out := frameDraft cfg id p
  out.set 1 (BitVec.ofNat 8 out.length)

/-- `Encode(id, p)`: refused (`none`) where p is longer than MP, else the frame, zero-filled to MaxFrameLen bytes
(rules R121, R122). -/
def encodeFrame (cfg : Config) (id : Byte) (p : List Byte) : Option Frame :=
  if p.length > cfg.mp then none
  else
    let out := frameBytes cfg id p
    some { length := BitVec.ofNat 8 out.length, bytes := fitBytes cfg.maxFrameLen out }

/-- ENCODE (rule R129). -/
def execEncode (id plen : Byte) (payload : List Byte) (s : State) : Host.Outcome State Fault Refusal :=
  match encodeFrame s.cfg id (operandSeq plen payload) with
  | none => .next ((s.emit .txTooLong).respond { quietResults s.cfg with ok := 0#1 })
  | some f => .next (s.respond { quietResults s.cfg with ok := 1#1, frame := f })

end Sys2Proof.Machine
end

