-- ==== Sys2Proof/Machine/Engine.lean ====
section
/-! DEFINITION. The packet engine: the host-port operations (rules R210 to R221). -/

namespace Sys2Proof.Machine

/-- NOP (rule R210). -/
def execNop (s : State) : Host.Outcome State Fault Refusal := .next s.done

/-- SEND: encode, then PushDrop; a payload that is too long is a silent no-op (rules R211, R235 (c)). -/
def execSend (id plen : Byte) (payload : List Byte) (s : State) : Host.Outcome State Fault Refusal :=
  match encodeFrame s.cfg id (operandSeq plen payload) with
  | none => .next (s.emit .txTooLong).done
  | some f => bindNext (txqPushDrop f s) fun s' => .next s'.done

/-- AVAILABLE (rule R212). -/
def execAvailable (s : State) : Host.Outcome State Fault Refusal :=
  .next (s.respond { quietResults s.cfg with bool := bitOf (rxAvailable s) })

/-- READ (rule R213). -/
def execRead (s : State) : Host.Outcome State Fault Refusal := rxqTakeResult s

/-- The read loop of SERVICE with a budget of `n` bytes: it stops at the first test with no byte; each byte read is
stamped with the clock and presented to the deframer at once (rules R215, R217). -/
def readLoop : Nat → State → Host.Outcome State Fault Refusal
  | 0, s => .next s
  | n + 1, s =>
    match s.chIn with
    | [] => .next s
    | b :: rest =>
      let r := sampleNow (s.withChIn rest)
      bindNext (rxStep b r.1 r.2) fun s' => readLoop n s'

/-- The send step of SERVICE: at most one frame, its first `length` bytes in one write (rule R216). -/
def sendStep (s : State) : Host.Outcome State Fault Refusal :=
  if s.txq.count > 0 then bindNext (txqTake s) fun r => .next (chWrite r.1.value r.2)
  else .next s

/-- SERVICE: the read loop, then the send step (rule R214). -/
def execService (s : State) : Host.Outcome State Fault Refusal :=
  bindNext (readLoop s.cfg.bpt s) fun s' => bindNext (sendStep s') fun s'' => .next s''.done

end Sys2Proof.Machine
end

