-- ==== Sys2Proof/Machine/Dispatch.lean ====
section
/-! DEFINITION. One arm for each instruction: the call of its meaning. -/

namespace Sys2Proof.Machine

def exec (i : Instr) (s : State) : Host.Outcome State Fault Refusal :=
  match i with
  | .nop => Sys2Proof.Machine.execNop s
  | .send id plen payload => Sys2Proof.Machine.execSend id plen payload s
  | .available => Sys2Proof.Machine.execAvailable s
  | .read => Sys2Proof.Machine.execRead s
  | .service => Sys2Proof.Machine.execService s
  | .crc8 slen sbytes => Sys2Proof.Machine.execCrc8 slen sbytes s
  | .crc8Step acc data => Sys2Proof.Machine.execCrc8Step acc data s
  | .encode id plen payload => Sys2Proof.Machine.execEncode id plen payload s
  | .rxStep data now => Sys2Proof.Machine.execRxStep data now s
  | .txqCount => Sys2Proof.Machine.execTxqCount s
  | .txqPush item => Sys2Proof.Machine.execTxqPush item s
  | .txqPop => Sys2Proof.Machine.execTxqPop s
  | .txqPeek => Sys2Proof.Machine.execTxqPeek s
  | .txqClear => Sys2Proof.Machine.execTxqClear s
  | .rxqCount => Sys2Proof.Machine.execRxqCount s
  | .rxqPush item => Sys2Proof.Machine.execRxqPush item s
  | .rxqPop => Sys2Proof.Machine.execRxqPop s
  | .rxqPeek => Sys2Proof.Machine.execRxqPeek s
  | .rxqClear => Sys2Proof.Machine.execRxqClear s

end Sys2Proof.Machine
end

