-- ==== Sys2Proof/Machine/Inputs.lean ====
section
/-! DEFINITION. What one input does: a command is decoded and run, or is illegal (rule R233); reset (rule R260); the
channel and the clock move (rules R7, R71, R239). -/

namespace Sys2Proof.Machine

/-- A command: the instruction it decodes to, or the illegal-command response (rules R89, R93, R233). -/
def runCommand (c : Command) (s : State) : Host.Outcome State Fault Refusal :=
  match decode s.cfg c with
  | .ok i => exec i s
  | .error _ => .next (illegalCommand s)

/-- One input, after it was taken from the list (rule R70). -/
def runInput (inp : Input) (s : State) : Host.Outcome State Fault Refusal :=
  match inp with
  | .command c => runCommand c s
  | .reset => .next (resetBlock s)
  | .channel bytes => .next (s.withChIn (s.chIn ++ bytes))
  | .clock samples => .next (s.withClock (s.clock ++ samples) s.drawn)

/-- Take the next input and run it; with none, the block is idle and all its state survives (rules R7, R140, R242). -/
def runNextInput (s : State) : Host.Outcome State Fault Refusal :=
  match s.inputs with
  | [] => .next s
  | inp :: rest => runInput inp (s.withInputs rest)

/-- Put a command where the next step takes its input from. -/
def presentCommand (c : Command) (s : State) : State := s.withInputs (.command c :: s.inputs)

end Sys2Proof.Machine
end

