-- ==== Sys2Proof/Machine/Step.lean ====
section
/-! DEFINITION. One step of the machine, and the placing of an opcode-table word as its next command. -/

namespace Sys2Proof.Machine

/-- One step: the next input of the agents (rules R6, R7, R70). A machine whose constants are no legal configuration is
no instance of the block (rule R9) and is refused (93_implementation_defined.md I12). -/
def step (s : State) : Host.Outcome State Fault Refusal :=
  if s.cfg.Legal then runNextInput s else .refused .illegalConfiguration

/-- The state in which the host presents an opcode-table word as the very next command (log entry 3). -/
def State.withFetchWord (s : State) (nbits w : Nat) : State := presentCommand (tableCommand nbits w) s

end Sys2Proof.Machine
end

