-- ==== Sys2Proof/Safety.lean ====
section
/-! DEFINITION. What claims about runs are stated in: the invariant of a reachable state (rules R43, R44, R157), bytes
presented to the deframer one after another (rules R98, R158), states that no operation can tell apart (rule R51), and, in
`Sys2Proof.Spec`, the rules' own formulas written out, so that a statement does not lean on the definition it is about. -/

namespace Sys2Proof.Machine

/-! ## The invariant -/

/-- The FIFO invariant of rule R43, with the ranges of rule R41: the slot array has N+1 elements, each `ok`; the
indices and COUNT are in range; BACK is COUNT slots after FRONT. -/
abbrev Fifo.Wf {α : Type} (n : Nat) (ok : α → Prop) (q : Fifo α) : Prop :=
  q.slots.length = n + 1 ∧ q.front ≤ n ∧ q.count ≤ n ∧ q.back = (q.front + q.count) % (n + 1) ∧
    ∀ x ∈ q.slots, ok x

/-- The deframer invariant of rule R44 with the bound behind rule R157: of the bytes counted after the header, every
one is a store or an escape, and every escape but a pending one was followed by a store. -/
abbrev Deframer.Wf (cfg : Config) (d : Deframer) : Prop :=
  d.pbuf.length = cfg.mp + 1 ∧ d.tstart < 2 ^ cfg.tw ∧ d.bc.toNat ≤ cfg.maxFrameLen ∧
    (1 ≤ d.bc.toNat →
      d.pidx.toNat ≤ d.bc.toNat - 3 ∧ d.pidx.toNat ≤ cfg.mp + 1 ∧
      d.bc.toNat ≤ 3 + 2 * d.pidx.toNat + d.esc.toNat ∧ (d.esc = true → 4 ≤ d.bc.toNat))

/-- The invariant of every reachable state: a legal configuration (rules R8 to R10), a parse state within rule R44,
and two FIFOs within rule R43 whose slots hold Frames and Packets of rules R39 and R40. -/
abbrev State.Inv (s : State) : Prop :=
  s.cfg.Legal ∧ s.rx.Wf s.cfg ∧ s.txq.Wf s.cfg.nTx (Frame.Ok s.cfg) ∧ s.rxq.Wf s.cfg.nRx (Packet.Ok s.cfg)

/-- A safe run of k steps: it ends in a state, neither a fault nor a refusal (rules R230, R272). -/
def SafeRun (k : Nat) (s : State) : Prop := ∃ t, Host.Core.run Sys2Proof.core k s = .next t

/-! ## Bytes presented one after another -/

/-- `FEED`: RX_STEP on each byte with its time value, in order (rules R98, R155). -/
def presentBytes : List (Byte × Time) → State → Host.Outcome State Fault Refusal
  | [], s => .next s
  | p :: ps, s => bindNext (exec (.rxStep p.1 p.2) s) fun s' => presentBytes ps s'

/-- A byte presented at time `t` does not time out a frame begun at time `t0` (rules R142, R158). -/
def onTime (cfg : Config) (t0 t : Time) : Prop :=
  cfg.clockPresent = true → ((t : Int) - (t0 : Int)) % ((2 ^ cfg.tw : Nat) : Int) ≤ (cfg.timeout : Int)

/-- A byte presented at time `t` finds a frame begun at time `t0` timed out (rules R142, R160). -/
def tooLate (cfg : Config) (t0 t : Time) : Prop :=
  cfg.clockPresent = true ∧ ((t : Int) - (t0 : Int)) % ((2 ^ cfg.tw : Nat) : Int) > (cfg.timeout : Int)

/-! ## States no operation can tell apart -/

/-- Two FIFOs with the same indices and the same contents; free slots may differ (rules R49, R51). -/
def Fifo.Alike {α : Type} (n : Nat) (p q : Fifo α) : Prop :=
  p.front = q.front ∧ p.back = q.back ∧ p.count = q.count ∧ p.contents n = q.contents n

/-- Two parse states that agree on what a rule may still read: BC; from the frame start on ESC, PIDX, TSTART and the
stored bytes; from the Id state on DLEN; from the Payload state on DID (rules R44 (e), R51). -/
def Deframer.Alike (d e : Deframer) : Prop :=
  d.bc = e.bc ∧
    (1 ≤ d.bc.toNat →
      d.esc = e.esc ∧ d.pidx = e.pidx ∧ d.tstart = e.tstart ∧ d.pbuf.take d.pidx.toNat = e.pbuf.take e.pidx.toNat) ∧
    (2 ≤ d.bc.toNat → d.dlen = e.dlen) ∧ (3 ≤ d.bc.toNat → d.did = e.did)

/-- Two states that differ at most in what rule R51 says no rule reads before it is written. -/
def State.Alike (s t : State) : Prop :=
  s.cfg = t.cfg ∧ Deframer.Alike s.rx t.rx ∧ Fifo.Alike s.cfg.nTx s.txq t.txq ∧ Fifo.Alike s.cfg.nRx s.rxq t.rxq ∧
    s.chIn = t.chIn ∧ s.chOut = t.chOut ∧ s.clock = t.clock ∧ s.drawn = t.drawn ∧ s.inputs = t.inputs ∧
    s.out = t.out ∧ s.trace = t.trace

end Sys2Proof.Machine

namespace Sys2Proof.Spec

open Sys2Proof.Machine

/-- The escape rule of rule R82, byte by byte. -/
def stuffed (cfg : Config) (x : List Byte) : List Byte :=
  x.flatMap fun y =>
    if y = cfg.escapeByte ∨ y = cfg.startByte ∨ y = cfg.endByte then [cfg.escapeByte, y] else [y]

/-- A frame as it travels: Start, a length byte, an id byte, a stuffed body, End (rule R80). -/
def wire (cfg : Config) (len id : Byte) (x : List Byte) : List Byte :=
  [cfg.startByte, len, id] ++ stuffed cfg x ++ [cfg.endByte]

/-- `CRC8` of rule R112, over the table. -/
def crcOf (s : List Byte) : Byte := s.foldl (fun acc b => crcTable (acc ^^^ b)) 0x00#8

/-- The extended payload: the payload and its CRC byte (rule R81). -/
def extended (p : List Byte) : List Byte := p ++ [crcOf p]

/-- The total length L of the frame of a payload: 4 bytes around the stuffed extended payload (rule R81). -/
def frameLen (cfg : Config) (p : List Byte) : Nat := 4 + (stuffed cfg (extended p)).length

/-- The bytes of the frame of a packet (rules R80, R81, R84). -/
def packetWire (cfg : Config) (id : Byte) (p : List Byte) : List Byte :=
  wire cfg (BitVec.ofNat 8 (frameLen cfg p)) id (extended p)

/-- The Frame of a packet: its length, and its bytes with the zero fill (rule R122). -/
def packetFrame (cfg : Config) (id : Byte) (p : List Byte) : Frame where
  length := BitVec.ofNat 8 (frameLen cfg p)
  bytes := packetWire cfg id p ++ List.replicate (cfg.maxFrameLen - frameLen cfg p) 0x00#8

/-- The Packet of an id and a payload, with the zero fill of rule R150. -/
def packetOf (cfg : Config) (id : Byte) (p : List Byte) : Packet where
  id := id
  plen := BitVec.ofNat 8 p.length
  data := p ++ List.replicate (cfg.mp - p.length) 0x00#8

/-- The registers after a push on a FIFO with room (rule R183). -/
def pushed {α : Type} (n : Nat) (x : α) (q : Fifo α) : Fifo α where
  slots := q.slots.set q.back x
  front := q.front
  back := (q.back + 1) % (n + 1)
  count := q.count + 1

/-- The registers after a push on a full FIFO that evicts its oldest (rule R184). -/
def evictPushed {α : Type} (n : Nat) (x : α) (q : Fifo α) : Fifo α where
  slots := q.slots.set q.back x
  front := (q.front + 1) % (n + 1)
  back := (q.back + 1) % (n + 1)
  count := n

/-- RXQ's registers after a push (rule R184). -/
def rxqPushed (n : Nat) (x : Packet) (q : Fifo Packet) : Fifo Packet :=
  if q.count = n then evictPushed n x q else pushed n x q

/-- The event of a push into RXQ (rule R184). -/
def evictEvent (n : Nat) (q : Fifo Packet) : List TraceEvent := if q.count = n then [.rxEvict] else []

/-- RXQ's contents after a delivery (rule R184). -/
def delivered (cfg : Config) (x : Packet) (q : Fifo Packet) : List Packet :=
  (if q.count = cfg.nRx then (q.contents cfg.nRx).tail else q.contents cfg.nRx) ++ [x]

/-- The registers after a pop of a non-empty FIFO (rule R185). -/
def popped {α : Type} (n : Nat) (q : Fifo α) : Fifo α :=
  { q with front := (q.front + 1) % (n + 1), count := q.count - 1 }

/-- The parse state back in Idle: BC and ESC are 0, every other register is kept (rules R143, R148). -/
def idled (d : Deframer) : Deframer := { d with bc := 0#8, esc := false }

/-- The parse state after a frame start at time `t` (rule R144). -/
def begun (cfg : Config) (t : Time) (d : Deframer) : Deframer :=
  { d with tstart := (if cfg.clockPresent then t else 0), esc := false, pidx := 0#8, bc := 1#8 }

/-- A Payload-state byte presented at time `t` does not trip the guard (rule R142). -/
def guardHolds (s : State) (t : Time) : Prop :=
  s.rx.bc.toNat ≤ s.cfg.maxFrameLen ∧ onTime s.cfg s.rx.tstart t

/-- A frame's bytes with their times: each a TW-bit value (rule R95), the first one t0, and all but the first three
within the timeout of it (rule R158's condition). -/
def inTime (cfg : Config) (timed : List (Byte × Time)) (t0 : Time) : Prop :=
  (∀ q ∈ timed, q.2 < 2 ^ cfg.tw) ∧ (timed.map Prod.snd).head? = some t0 ∧ ∀ q ∈ timed.drop 3, onTime cfg t0 q.2

/-- The time value of the j-th byte one SERVICE reads: the clock's j-th reading, or 0 without a clock (rule R217). -/
def serviceTime (s : State) (j : Nat) : Time :=
  if s.cfg.clockPresent then (s.clock[j]?.getD (Config.freeTime (s.drawn + (j - s.clock.length)))) % 2 ^ s.cfg.tw else 0

/-- How many bytes one SERVICE reads (rule R215). -/
def serviceReads (s : State) : Nat := min s.cfg.bpt s.chIn.length

/-- The state with the bytes and the clock readings of one SERVICE taken from the agents (rules R215, R217). -/
def serviceTaken (s : State) : State :=
  { s with
    chIn := s.chIn.drop (serviceReads s)
    clock := if s.cfg.clockPresent then s.clock.drop (serviceReads s) else s.clock
    drawn := if s.cfg.clockPresent then s.drawn + (serviceReads s - s.clock.length) else s.drawn }

/-- How many valid frames a list of events delivered. -/
def deliveries (evs : List TraceEvent) : Nat := evs.countP (· == .frameOk)

/-- A push for each element, in order, on a FIFO operation that also gives events. -/
def pushAll {α : Type} (push : α → Fifo α → Host.Outcome (Fifo α × List TraceEvent) Fault Refusal) :
    List α → Fifo α → Host.Outcome (Fifo α) Fault Refusal
  | [], q => .next q
  | x :: xs, q => bindNext (push x q) fun r => pushAll push xs r.1

/-- What two states share when only the result ports and the trace differ. -/
def sameButOutputs (s t : State) : Prop :=
  s.cfg = t.cfg ∧ s.rx = t.rx ∧ s.txq = t.txq ∧ s.rxq = t.rxq ∧ s.chIn = t.chIn ∧ s.chOut = t.chOut ∧
    s.clock = t.clock ∧ s.drawn = t.drawn ∧ s.inputs = t.inputs

/-- Rows of the printed table of rule R110: entry (r, k) is T[0xrk]. -/
def crcRows : List (List Nat) :=
  [[0x00, 0x07, 0x0E, 0x09, 0x1C, 0x1B, 0x12, 0x15, 0x38, 0x3F, 0x36, 0x31, 0x24, 0x23, 0x2A, 0x2D],
   [0x70, 0x77, 0x7E, 0x79, 0x6C, 0x6B, 0x62, 0x65, 0x48, 0x4F, 0x46, 0x41, 0x54, 0x53, 0x5A, 0x5D],
   [0xE0, 0xE7, 0xEE, 0xE9, 0xFC, 0xFB, 0xF2, 0xF5, 0xD8, 0xDF, 0xD6, 0xD1, 0xC4, 0xC3, 0xCA, 0xCD],
   [0x90, 0x97, 0x9E, 0x99, 0x8C, 0x8B, 0x82, 0x85, 0xA8, 0xAF, 0xA6, 0xA1, 0xB4, 0xB3, 0xBA, 0xBD]] ++
  [[0xC7, 0xC0, 0xC9, 0xCE, 0xDB, 0xDC, 0xD5, 0xD2, 0xFF, 0xF8, 0xF1, 0xF6, 0xE3, 0xE4, 0xED, 0xEA],
   [0xB7, 0xB0, 0xB9, 0xBE, 0xAB, 0xAC, 0xA5, 0xA2, 0x8F, 0x88, 0x81, 0x86, 0x93, 0x94, 0x9D, 0x9A],
   [0x27, 0x20, 0x29, 0x2E, 0x3B, 0x3C, 0x35, 0x32, 0x1F, 0x18, 0x11, 0x16, 0x03, 0x04, 0x0D, 0x0A],
   [0x57, 0x50, 0x59, 0x5E, 0x4B, 0x4C, 0x45, 0x42, 0x6F, 0x68, 0x61, 0x66, 0x73, 0x74, 0x7D, 0x7A]] ++
  [[0x89, 0x8E, 0x87, 0x80, 0x95, 0x92, 0x9B, 0x9C, 0xB1, 0xB6, 0xBF, 0xB8, 0xAD, 0xAA, 0xA3, 0xA4],
   [0xF9, 0xFE, 0xF7, 0xF0, 0xE5, 0xE2, 0xEB, 0xEC, 0xC1, 0xC6, 0xCF, 0xC8, 0xDD, 0xDA, 0xD3, 0xD4],
   [0x69, 0x6E, 0x67, 0x60, 0x75, 0x72, 0x7B, 0x7C, 0x51, 0x56, 0x5F, 0x58, 0x4D, 0x4A, 0x43, 0x44],
   [0x19, 0x1E, 0x17, 0x10, 0x05, 0x02, 0x0B, 0x0C, 0x21, 0x26, 0x2F, 0x28, 0x3D, 0x3A, 0x33, 0x34]] ++
  [[0x4E, 0x49, 0x40, 0x47, 0x52, 0x55, 0x5C, 0x5B, 0x76, 0x71, 0x78, 0x7F, 0x6A, 0x6D, 0x64, 0x63],
   [0x3E, 0x39, 0x30, 0x37, 0x22, 0x25, 0x2C, 0x2B, 0x06, 0x01, 0x08, 0x0F, 0x1A, 0x1D, 0x14, 0x13],
   [0xAE, 0xA9, 0xA0, 0xA7, 0xB2, 0xB5, 0xBC, 0xBB, 0x96, 0x91, 0x98, 0x9F, 0x8A, 0x8D, 0x84, 0x83],
   [0xDE, 0xD9, 0xD0, 0xD7, 0xC2, 0xC5, 0xCC, 0xCB, 0xE6, 0xE1, 0xE8, 0xEF, 0xFA, 0xFD, 0xF4, 0xF3]]

end Sys2Proof.Spec
end

