-- ==== Sys2Proof/Certificates/Slice0/Obligations.lean ====
section
/-! DEFINITION. The statements for the provers. The formulas of `Sys2Proof.Spec` stand in Safety.lean. -/

section
open Sys2Proof Sys2Proof.Machine Sys2Proof.Spec

/-! ## Commands and their decoding -/

/-- The words of the opcode map (rule R92), a few of each unit written out, with the operands each names. -/
def Obligations.OpcodeWordsDecodeToTheirInstructions : Prop :=
  ∀ (cfg : Config) (v : OperandPorts),
    decode cfg ⟨.host, 0b00000000#8, v⟩ = .ok .nop ∧
    decode cfg ⟨.host, 0b00000001#8, v⟩ = .ok (.send v.id v.plen (fitBytes cfg.mp v.payload)) ∧
    decode cfg ⟨.host, 0b00000100#8, v⟩ = .ok .service ∧
    decode cfg ⟨.test, 0b00010001#8, v⟩ = .ok (.crc8Step v.acc v.data) ∧
    decode cfg ⟨.test, 0b00100000#8, v⟩ = .ok (.encode v.id v.plen (fitBytes cfg.mp v.payload)) ∧
    decode cfg ⟨.test, 0b00110000#8, v⟩ = .ok (.rxStep v.data (v.now % 2 ^ cfg.tw)) ∧
    decode cfg ⟨.test, 0b01000010#8, v⟩ = .ok .txqPop ∧
    decode cfg ⟨.test, 0b01010100#8, v⟩ = .ok .rxqClear

/-- Decoding the command of a well-formed instruction gives it back, for every instruction and every operand its ports
can carry (section 4 and 5 of 30_encoding.md). -/
def Obligations.DecodeOfEncodeIsIdentity : Prop :=
  ∀ (cfg : Config) (i : Instr), i.wellFormed cfg = true → decode cfg (encode i) = .ok i

/-- What the decoder reads is a well-formed instruction whose opcode byte and port are the command's, so a command has
one meaning; and the ports the instruction does not name are ignored (section 4 of 30_encoding.md). -/
def Obligations.DecodedInstructionIsItsCommand : Prop :=
  ∀ (cfg : Config) (c : Command) (i : Instr), decode cfg c = .ok i →
    i.wellFormed cfg = true ∧ (encode i).port = c.port ∧ (encode i).op = c.op ∧
      decode cfg { c with operands := (encode i).operands } = .ok i

/-- A reserved opcode, or an opcode on a port that does not accept its unit, is an illegal command: nothing but the
result ports and the trace changes, and `status = 1` (rule R93). -/
def Obligations.ReservedOpcodeIsIllegal : Prop :=
  ∀ (s : State) (c : Command) (rest : List Input), s.cfg.Legal → s.inputs = .command c :: rest →
    (c.port = .host ∧ c.op ∉ [0x00#8, 0x01#8, 0x02#8, 0x03#8, 0x04#8] ∨
      c.port = .test ∧ c.op ∉ [0x10#8, 0x11#8, 0x20#8, 0x30#8, 0x40#8, 0x41#8, 0x42#8, 0x43#8, 0x44#8,
        0x50#8, 0x51#8, 0x52#8, 0x53#8, 0x54#8]) →
    step s = .next { s with
      inputs := rest
      out := { quietResults s.cfg with status := 1#1 }
      trace := s.trace ++ [.illegalCmd] }

/-- Which operand values are refused: a push of an over-long frame or packet is the illegal command, SEND and ENCODE of
an over-long payload are not, and every other operand value of its port's width is legal (rule R94). -/
def Obligations.IllegalExactlyOutOfRangePush : Prop :=
  (∀ (s : State) (f : Frame), f.length.toNat > s.cfg.maxFrameLen →
    exec (.txqPush f) s = .next { s with
      out := { quietResults s.cfg with status := 1#1 }, trace := s.trace ++ [.illegalCmd] }) ∧
  (∀ (s : State) (p : Packet), p.plen.toNat > s.cfg.mp →
    exec (.rxqPush p) s = .next { s with
      out := { quietResults s.cfg with status := 1#1 }, trace := s.trace ++ [.illegalCmd] }) ∧
  (∀ (s : State) (id plen : Byte) (payload : List Byte), plen.toNat > s.cfg.mp →
    exec (.send id plen payload) s = .next { s with out := quietResults s.cfg, trace := s.trace ++ [.txTooLong] } ∧
    exec (.encode id plen payload) s = .next { s with out := quietResults s.cfg, trace := s.trace ++ [.txTooLong] }) ∧
  (∀ (s t : State) (i : Instr), exec i s = .next t →
    (t.out.status = 1#1 ↔ (∃ f, i = .txqPush f ∧ f.length.toNat > s.cfg.maxFrameLen) ∨
      (∃ p, i = .rxqPush p ∧ p.plen.toNat > s.cfg.mp)))

/-- A step whose next input is a command that decodes runs exactly that instruction, on the state with the command taken. -/
def Obligations.StepRunsTheDecodedInstruction : Prop :=
  ∀ (s : State) (c : Command) (rest : List Input) (i : Instr), s.cfg.Legal → s.inputs = .command c :: rest →
    decode s.cfg c = .ok i → step s = exec i { s with inputs := rest }

/-- The block acts only when an operation is issued: a step with no input changes nothing, and the bytes the channel
supplies wait for SERVICE (rules R7, R71, R234). The model's choices, which no rule states: the clock's values are samples
supplied ahead, which queue up and wait for SERVICE's readings (log entry 5; rule R239 has no such queue), and these steps
keep the result ports and the trace as they were (log entry 7). -/
def Obligations.AgentsOnlySupplyTheirInputs : Prop :=
  ∀ s : State, s.cfg.Legal →
    (s.inputs = [] → step s = .next s) ∧
    (∀ bytes rest, s.inputs = .channel bytes :: rest →
      step s = .next { s with inputs := rest, chIn := s.chIn ++ bytes }) ∧
    (∀ samples rest, s.inputs = .clock samples :: rest →
      step s = .next { s with inputs := rest, clock := s.clock ++ samples })

/-- Constants outside the ranges of rules R8 to R10 are no instance of the block: the step is refused, whatever the
input (section 4 of 00_scope.md; 93_implementation_defined.md I12; log entry 8). -/
def Obligations.IllegalConfigurationIsRefused : Prop :=
  ∀ s : State, ¬ s.cfg.Legal → step s = .refused .illegalConfiguration

/-! ## Reset, and the invariant of reachable states -/

/-- Reset as an input event: BC and the FIFO registers are 0; the constants, the channel and the clock are untouched
(rule R260). It says nothing of the registers the rule leaves unspecified. -/
def Obligations.ResetInputResetsTheBlock : Prop :=
  ∀ (s : State) (rest : List Input), s.cfg.Legal → s.inputs = .reset :: rest →
    ∃ t, step s = .next t ∧ t.rx.bc = 0#8 ∧
      (t.txq.count = 0 ∧ t.txq.front = 0 ∧ t.txq.back = 0) ∧ (t.rxq.count = 0 ∧ t.rxq.front = 0 ∧ t.rxq.back = 0) ∧
      t.cfg = s.cfg ∧ t.chIn = s.chIn ∧ t.chOut = s.chOut ∧ t.clock = s.clock ∧ t.drawn = s.drawn ∧ t.inputs = rest

/-- The reset values of rule R50, for every configuration: BC is 0, both FIFOs have COUNT, FRONT and BACK 0, the
constants have their build values. It says nothing of the registers the rule leaves unspecified. -/
def Obligations.ResetStateHasTheResetValues : Prop :=
  ∀ cfg : Config,
    (State.resetWith cfg).rx.bc = 0#8 ∧
    ((State.resetWith cfg).txq.count = 0 ∧ (State.resetWith cfg).txq.front = 0 ∧ (State.resetWith cfg).txq.back = 0) ∧
    ((State.resetWith cfg).rxq.count = 0 ∧ (State.resetWith cfg).rxq.front = 0 ∧ (State.resetWith cfg).rxq.back = 0) ∧
    (State.resetWith cfg).cfg = cfg

/-- The machine after reset meets the invariant, for every legal configuration (sections 4, 5 and 9 of 10_state.md). The
configuration of `State.reset` is the model's choice (log entry 2). -/
def Obligations.ResetMeetsTheInvariant : Prop :=
  (∀ cfg : Config, cfg.Legal → (State.resetWith cfg).Inv) ∧ State.reset.Inv

/-- Every step keeps the invariant: the FIFO invariants of section 4 and the deframer invariants of section 5 of
10_state.md, with the bound BC <= MaxFrameLen. -/
def Obligations.StepKeepsTheInvariant : Prop :=
  ∀ s t : State, s.Inv → step s = .next t → t.Inv

/-- The block never halts, faults or stops: from a state within the invariant every run of any length is safe
(section 1 of 60_exceptions.md, section 4 of 70_reset_and_hazards.md). -/
def Obligations.EveryRunIsSafe : Prop :=
  ∀ s : State, s.Inv → ∀ k : Nat, SafeRun k s

/-- Every instruction completes from every state within the invariant, and keeps it and the constants
(section 1 of 60_exceptions.md). -/
def Obligations.EveryInstructionCompletes : Prop :=
  ∀ (s : State) (i : Instr), s.Inv → i.wellFormed s.cfg = true →
    ∃ t, exec i s = .next t ∧ t.Inv ∧ t.cfg = s.cfg ∧ t.inputs = s.inputs

/-! ## CRC-8 -/

/-- The CRC-8 table has the 256 values printed in section 1 of 40_crc8.md, which supplies their construction from general
knowledge: PRESUMED (log entry 12). -/
def Obligations.CrcTableHasThePrintedValues : Prop :=
  ∀ i : Byte, (crcTable i).toNat = ((crcRows.getD (i.toNat / 16) []).getD (i.toNat % 16) 0)

/-- T[0] is 0, T is a permutation of the bytes, and T is linear over XOR (section 1 of 40_crc8.md, properties (b), (d)). -/
def Obligations.CrcTableIsALinearPermutation : Prop :=
  crcTable 0#8 = 0#8 ∧ (∀ a b : Byte, crcTable a = crcTable b → a = b) ∧
    ∀ a b : Byte, crcTable (a ^^^ b) = crcTable a ^^^ crcTable b

/-- The CRC of a sequence followed by its own CRC is 0 (section 1 of 40_crc8.md, property (c)). -/
def Obligations.CrcOfMessageAndItsCrcIsZero : Prop :=
  ∀ s : List Byte, crc8 (s ++ [crc8 s]) = 0x00#8

/-- Two sequences that differ in exactly one byte have different CRCs (section 1 of 40_crc8.md, property (e)). -/
def Obligations.CrcDetectsOneChangedByte : Prop :=
  ∀ (a b : List Byte) (x y : Byte), x ≠ y → crc8 (a ++ x :: b) ≠ crc8 (a ++ y :: b)

/-- CRC8 gives the checksum of its operand sequence and writes no state (rule R114, with the function of rule R112). -/
def Obligations.Crc8ReturnsTheChecksum : Prop :=
  ∀ (s : State) (slen : Byte) (sbytes : List Byte), sbytes.length = 255 →
    exec (.crc8 slen sbytes) s = .next { s with
      out := { quietResults s.cfg with byte := crcOf (sbytes.take slen.toNat) } }

/-- CRC8_STEP gives T[acc XOR data] and writes no state; chaining it from 0 over a sequence gives CRC8 (rule R115). -/
def Obligations.Crc8StepReturnsOneUpdate : Prop :=
  (∀ (s : State) (acc data : Byte),
    exec (.crc8Step acc data) s = .next { s with
      out := { quietResults s.cfg with byte := crcTable (acc ^^^ data) } }) ∧
  crc8 [] = 0x00#8 ∧ ∀ (p : List Byte) (b : Byte), crc8 (p ++ [b]) = crcTable (crc8 p ^^^ b)

/-! ## The frame encoder -/

/-- ENCODE gives the frame of its packet with ok = 1, or ok = 0 and the default frame where plen exceeds MP; it writes
no state (rule R129, with the algorithm of rule R122). -/
def Obligations.EncodeReturnsTheFrame : Prop :=
  ∀ (s : State) (id plen : Byte) (payload : List Byte), payload.length = s.cfg.mp →
    (plen.toNat ≤ s.cfg.mp →
      exec (.encode id plen payload) s = .next { s with
        out := { quietResults s.cfg with ok := 1#1, frame := packetFrame s.cfg id (payload.take plen.toNat) } }) ∧
    (plen.toNat > s.cfg.mp →
      exec (.encode id plen payload) s = .next { s with
        out := { quietResults s.cfg with ok := 0#1, frame := defaultFrame s.cfg }
        trace := s.trace ++ [.txTooLong] })

/-- An accepted frame's length is 5 + len(p) + r, where r counts the reserved bytes of the extended payload; it is
between 5 and MaxFrameLen, at most 254, is the FrameLength byte, and counts every byte of the frame (sections 1 and 2 of
41_stuffer.md and section 1 of 30_encoding.md). -/
def Obligations.EncodedFrameLengthAndShape : Prop :=
  ∀ (cfg : Config) (id : Byte) (p : List Byte) (f : Frame), cfg.Legal → encodeFrame cfg id p = some f →
    p.length ≤ cfg.mp ∧ f.Ok cfg ∧
      f.length.toNat = 5 + p.length + (extended p).countP cfg.reserved ∧
      5 ≤ f.length.toNat ∧ f.length.toNat ≤ 254 ∧
      f.value = packetWire cfg id p ∧ f.value[1]? = some f.length ∧ f.value.length = f.length.toNat

/-- Destuffing a stuffed sequence gives it back (section 2 of 30_encoding.md). -/
def Obligations.DestuffInvertsStuff : Prop :=
  ∀ (cfg : Config) (x : List Byte), destuff cfg (stuff cfg x) = x

/-- SEND queues the frame of its packet; it is a silent no-op where plen exceeds MP or TXQ is full (rule R211). -/
def Obligations.SendQueuesTheFrame : Prop :=
  ∀ (s : State) (id plen : Byte) (payload : List Byte), s.Inv → payload.length = s.cfg.mp →
    (plen.toNat > s.cfg.mp →
      exec (.send id plen payload) s = .next { s with out := quietResults s.cfg, trace := s.trace ++ [.txTooLong] }) ∧
    (plen.toNat ≤ s.cfg.mp → s.txq.count = s.cfg.nTx →
      exec (.send id plen payload) s = .next { s with out := quietResults s.cfg, trace := s.trace ++ [.txFullDrop] }) ∧
    (plen.toNat ≤ s.cfg.mp → s.txq.count ≠ s.cfg.nTx →
      exec (.send id plen payload) s = .next { s with
        txq := pushed s.cfg.nTx (packetFrame s.cfg id (payload.take plen.toNat)) s.txq
        out := quietResults s.cfg })

/-! ## The deframer, byte by byte -/

/-- The Idle rule: StartByte begins a frame, any other byte is noise (rule R144). -/
def Obligations.IdleByteBeginsAFrameOrIsNoise : Prop :=
  ∀ (s : State) (b : Byte) (t : Time), s.rx.bc = 0#8 →
    exec (.rxStep b t) s = .next (
      if b = s.cfg.startByte then { s with rx := begun s.cfg t s.rx, out := quietResults s.cfg }
      else { s with trace := s.trace ++ [.noise], out := quietResults s.cfg })

/-- The Length and Id rules: every byte value is taken, at every time (rules R145, R146). -/
def Obligations.HeaderBytesAreStored : Prop :=
  ∀ (s : State) (b : Byte) (t : Time),
    (s.rx.bc = 1#8 →
      exec (.rxStep b t) s = .next { s with rx := { s.rx with dlen := b, bc := 2#8 }, out := quietResults s.cfg }) ∧
    (s.rx.bc = 2#8 →
      exec (.rxStep b t) s = .next { s with rx := { s.rx with did := b, bc := 3#8 }, out := quietResults s.cfg })

/-- The Payload escape rule: an unescaped EscapeByte sets ESC, is counted and is not stored (rule R147). -/
def Obligations.PayloadEscapeIsCountedNotStored : Prop :=
  ∀ (s : State) (t : Time), 3 ≤ s.rx.bc.toNat → guardHolds s t → s.rx.esc = false →
    exec (.rxStep s.cfg.escapeByte t) s = .next { s with
      rx := { s.rx with esc := true, bc := s.rx.bc + 1#8 }, out := quietResults s.cfg }

/-- The Payload data rule: a byte that is neither EscapeByte nor EndByte, StartByte too, is stored if there is room;
without room the frame is abandoned (rule R151). -/
def Obligations.PayloadDataIsStored : Prop :=
  ∀ (s : State) (b : Byte) (t : Time), s.Inv → 3 ≤ s.rx.bc.toNat → guardHolds s t → s.rx.esc = false →
    b ≠ s.cfg.escapeByte → b ≠ s.cfg.endByte →
    exec (.rxStep b t) s = .next (
      if s.rx.pidx.toNat < s.cfg.mp + 1 then
        { s with
          rx := { s.rx with
            pbuf := s.rx.pbuf.set s.rx.pidx.toNat b, pidx := s.rx.pidx + 1#8, bc := s.rx.bc + 1#8 }
          out := quietResults s.cfg }
      else { s with rx := idled s.rx, trace := s.trace ++ [.dropOverflow], out := quietResults s.cfg })

/-- The Payload literal rule: after an escape any byte is stored if there is room, and ESC is cleared; without room the
frame is abandoned (rule R152). -/
def Obligations.EscapedByteIsStoredLiterally : Prop :=
  ∀ (s : State) (b : Byte) (t : Time), s.Inv → 3 ≤ s.rx.bc.toNat → guardHolds s t → s.rx.esc = true →
    exec (.rxStep b t) s = .next (
      if s.rx.pidx.toNat < s.cfg.mp + 1 then
        { s with
          rx := { s.rx with
            pbuf := s.rx.pbuf.set s.rx.pidx.toNat b, pidx := s.rx.pidx + 1#8, esc := false, bc := s.rx.bc + 1#8 }
          out := quietResults s.cfg }
      else { s with rx := idled s.rx, trace := s.trace ++ [.dropOverflow], out := quietResults s.cfg })

/-- The Payload end rule: a frame with a stored CRC byte, the declared length and the right CRC is delivered into RXQ;
any other frame is dropped; either way the deframer is Idle (rules R148, R149, R150). -/
def Obligations.FrameEndDeliversOrDrops : Prop :=
  ∀ (s : State) (t : Time), s.Inv → 3 ≤ s.rx.bc.toNat → guardHolds s t → s.rx.esc = false →
    (1 ≤ s.rx.pidx.toNat ∧ s.rx.bc.toNat + 1 = s.rx.dlen.toNat ∧
        s.rx.pbuf[s.rx.pidx.toNat - 1]? = some (crcOf (s.rx.pbuf.take (s.rx.pidx.toNat - 1))) →
      exec (.rxStep s.cfg.endByte t) s = .next { s with
        rx := idled s.rx
        rxq := rxqPushed s.cfg.nRx (packetOf s.cfg s.rx.did (s.rx.pbuf.take (s.rx.pidx.toNat - 1))) s.rxq
        trace := s.trace ++ [.frameOk] ++ evictEvent s.cfg.nRx s.rxq
        out := quietResults s.cfg }) ∧
    (¬ (1 ≤ s.rx.pidx.toNat ∧ s.rx.bc.toNat + 1 = s.rx.dlen.toNat ∧
        s.rx.pbuf[s.rx.pidx.toNat - 1]? = some (crcOf (s.rx.pbuf.take (s.rx.pidx.toNat - 1)))) →
      exec (.rxStep s.cfg.endByte t) s = .next { s with
        rx := idled s.rx
        trace := s.trace ++ [if s.rx.pidx.toNat < 1 then .dropNoCrc
          else if s.rx.bc.toNat + 1 ≠ s.rx.dlen.toNat then .dropLen else .dropCrc]
        out := quietResults s.cfg })

/-- The guard: in the Payload state a byte that finds the frame too long or timed out abandons it and is an Idle byte in
the same step; a byte within both bounds finds the state as it was; in the Length and Id states, and without a clock, the
time value has no effect (rule R142). -/
def Obligations.GuardAbandonsAndReexamines : Prop :=
  (∀ (s : State) (b : Byte) (t : Time), 3 ≤ s.rx.bc.toNat →
    (s.rx.bc.toNat > s.cfg.maxFrameLen ∨ tooLate s.cfg s.rx.tstart t) →
    exec (.rxStep b t) s = .next (
      if b = s.cfg.startByte then
        { s with
          rx := begun s.cfg t (idled s.rx)
          trace := s.trace ++ [if s.rx.bc.toNat > s.cfg.maxFrameLen then .dropGuardLen else .dropTimeout]
          out := quietResults s.cfg }
      else
        { s with
          rx := idled s.rx
          trace := s.trace ++ [if s.rx.bc.toNat > s.cfg.maxFrameLen then .dropGuardLen else .dropTimeout, .noise]
          out := quietResults s.cfg })) ∧
  (∀ (s : State) (t : Time), 3 ≤ s.rx.bc.toNat → guardHolds s t → rxGuard t s = s) ∧
  (∀ (s : State) (b : Byte) (t t' : Time), s.rx.bc = 1#8 ∨ s.rx.bc = 2#8 →
    exec (.rxStep b t) s = exec (.rxStep b t') s) ∧
  (∀ (s : State) (b : Byte) (t t' : Time), s.cfg.clockPresent = false →
    exec (.rxStep b t) s = exec (.rxStep b t') s)

/-! ## The deframer over whole frames -/

/-- Which frames the deframer accepts (section 3 of 30_encoding.md, section 2 of 42_deframer.md): a Start, a length
byte, an id byte, a stuffed body of at most MP+1 bytes and an End, presented in time from Idle, are delivered exactly
where the body has a CRC byte, the length byte counts the frame, and the CRC is right; the id byte is not checked. Else
the one drop event tells why, and RXQ is unchanged. -/
def Obligations.ReceivedFrameVerdict : Prop :=
  ∀ (s : State) (len id : Byte) (x : List Byte) (timed : List (Byte × Time)) (t0 : Time),
    s.Inv → s.rx.bc = 0#8 → x.length ≤ s.cfg.mp + 1 → timed.map Prod.fst = wire s.cfg len id x →
    inTime s.cfg timed t0 →
    ∃ t, presentBytes timed s = .next t ∧ t.rx.bc = 0#8 ∧ t.txq = s.txq ∧ t.chIn = s.chIn ∧ t.chOut = s.chOut ∧
      (x ≠ [] ∧ len.toNat = 4 + (stuffed s.cfg x).length ∧ x.getLast? = some (crcOf x.dropLast) →
        t.rxq.contents s.cfg.nRx = delivered s.cfg (packetOf s.cfg id x.dropLast) s.rxq ∧
        t.trace = s.trace ++ [.frameOk] ++ evictEvent s.cfg.nRx s.rxq) ∧
      (¬ (x ≠ [] ∧ len.toNat = 4 + (stuffed s.cfg x).length ∧ x.getLast? = some (crcOf x.dropLast)) →
        t.rxq = s.rxq ∧
        t.trace = s.trace ++ [if x = [] then .dropNoCrc
          else if len.toNat ≠ 4 + (stuffed s.cfg x).length then .dropLen else .dropCrc])

/-- Round trip: the frame the encoder gives for a packet, presented from Idle in time, delivers exactly that packet, and
the deframer is Idle again (section 4 of 42_deframer.md). -/
def Obligations.RoundTripDeliversThePacket : Prop :=
  ∀ (s : State) (id : Byte) (p : List Byte) (f : Frame) (timed : List (Byte × Time)) (t0 : Time),
    s.Inv → s.rx.bc = 0#8 → encodeFrame s.cfg id p = some f → timed.map Prod.fst = f.value →
    inTime s.cfg timed t0 →
    ∃ t, presentBytes timed s = .next t ∧ t.rx.bc = 0#8 ∧
      t.rxq.contents s.cfg.nRx = delivered s.cfg (packetOf s.cfg id p) s.rxq ∧
      t.trace = s.trace ++ [.frameOk] ++ evictEvent s.cfg.nRx s.rxq

/-- Resynchronisation: bytes other than StartByte before a frame, at any times, change nothing but the trace, and the
frame is delivered (section 4 of 42_deframer.md). -/
def Obligations.NoiseBeforeAFrameIsIgnored : Prop :=
  ∀ (s : State) (id : Byte) (p : List Byte) (noise timed : List (Byte × Time)) (t0 : Time),
    s.Inv → s.rx.bc = 0#8 → p.length ≤ s.cfg.mp → (∀ q ∈ noise, q.1 ≠ s.cfg.startByte) →
    timed.map Prod.fst = packetWire s.cfg id p → inTime s.cfg timed t0 →
    ∃ t, presentBytes (noise ++ timed) s = .next t ∧ t.rx.bc = 0#8 ∧
      t.rxq.contents s.cfg.nRx = delivered s.cfg (packetOf s.cfg id p) s.rxq ∧
      t.trace = s.trace ++ List.replicate noise.length .noise ++ [.frameOk] ++ evictEvent s.cfg.nRx s.rxq

/-- Timeout recovery: a partial frame in the Payload state is abandoned by the StartByte of a frame that comes too late
for it, and that frame is delivered (section 4 of 42_deframer.md). -/
def Obligations.TimeoutRecoversFromThePayloadState : Prop :=
  ∀ (s : State) (id : Byte) (p : List Byte) (timed : List (Byte × Time)) (t0 : Time),
    s.Inv → 3 ≤ s.rx.bc.toNat → p.length ≤ s.cfg.mp → timed.map Prod.fst = packetWire s.cfg id p →
    tooLate s.cfg s.rx.tstart t0 → inTime s.cfg timed t0 →
    ∃ t, presentBytes timed s = .next t ∧ t.rx.bc = 0#8 ∧
      t.rxq.contents s.cfg.nRx = delivered s.cfg (packetOf s.cfg id p) s.rxq ∧
      t.trace = s.trace ++ [.dropTimeout, .frameOk] ++ evictEvent s.cfg.nRx s.rxq

/-- Recovery in every state: after a partial frame in any state, two bytes other than StartByte at any times, then a
frame that comes too late for the partial one, deliver that frame last (section 2 of 70_reset_and_hazards.md). -/
def Obligations.TwoFillersRecoverFromEveryState : Prop :=
  ∀ (s : State) (id a b : Byte) (p : List Byte) (timed : List (Byte × Time)) (t0 ta tb : Time),
    s.Inv → 1 ≤ s.rx.bc.toNat → p.length ≤ s.cfg.mp → a ≠ s.cfg.startByte → b ≠ s.cfg.startByte →
    ta < 2 ^ s.cfg.tw → tb < 2 ^ s.cfg.tw →
    timed.map Prod.fst = packetWire s.cfg id p → tooLate s.cfg s.rx.tstart t0 → inTime s.cfg timed t0 →
    ∃ t, presentBytes ((a, ta) :: (b, tb) :: timed) s = .next t ∧ t.rx.bc = 0#8 ∧
      (t.rxq.contents s.cfg.nRx).getLast? = some (packetOf s.cfg id p)

/-- One changed byte in a frame from Idle (section 4 of 42_deframer.md): a changed FrameLength byte, and a payload or
CRC byte changed from one value outside RES to another, drop the frame and leave RXQ as it was. -/
def Obligations.OneChangedByteDropsTheFrame : Prop :=
  ∀ (s : State) (id : Byte) (p : List Byte) (timed : List (Byte × Time)) (t0 : Time),
    s.Inv → s.rx.bc = 0#8 → p.length ≤ s.cfg.mp → inTime s.cfg timed t0 →
    (∀ len : Byte, len.toNat ≠ frameLen s.cfg p → timed.map Prod.fst = wire s.cfg len id (extended p) →
      ∃ t, presentBytes timed s = .next t ∧ t.rx.bc = 0#8 ∧ t.rxq = s.rxq ∧ t.trace = s.trace ++ [.dropLen]) ∧
    (∀ (a b : List Byte) (x y : Byte), extended p = a ++ x :: b → x ≠ y →
      s.cfg.reserved x = false → s.cfg.reserved y = false →
      timed.map Prod.fst = wire s.cfg (BitVec.ofNat 8 (frameLen s.cfg p)) id (a ++ y :: b) →
      ∃ t, presentBytes timed s = .next t ∧ t.rx.bc = 0#8 ∧ t.rxq = s.rxq ∧ t.trace = s.trace ++ [.dropCrc])

/-- BC never exceeds MaxFrameLen, so no step from a state within the invariant reports the length guard (section 4 of
42_deframer.md); a step only adds to the trace. -/
def Obligations.LengthGuardNeverTrips : Prop :=
  ∀ s t : State, s.Inv → step s = .next t →
    ∃ evs, t.trace = s.trace ++ evs ∧ TraceEvent.dropGuardLen ∉ evs

/-- The parse state changes only when a byte is presented: no instruction but RX_STEP and SERVICE writes it (sections 2
and 8 of 10_state.md, section 1 of 42_deframer.md). -/
def Obligations.OnlyPresentedBytesMoveTheParseState : Prop :=
  ∀ (i : Instr) (s t : State), exec i s = .next t → i ≠ .service → (∀ b now, i ≠ .rxStep b now) → t.rx = s.rx

/-! ## The FIFOs -/

/-- TXQ.PUSH: an over-long frame is illegal; a push on a full TXQ changes nothing but the trace; else the frame is
stored at BACK (rules R183, R189). -/
def Obligations.TxqPushDropsTheNewest : Prop :=
  ∀ (s : State) (f : Frame), s.Inv →
    (f.length.toNat > s.cfg.maxFrameLen →
      exec (.txqPush f) s = .next { s with
        out := { quietResults s.cfg with status := 1#1 }, trace := s.trace ++ [.illegalCmd] }) ∧
    (f.length.toNat ≤ s.cfg.maxFrameLen → s.txq.count = s.cfg.nTx →
      exec (.txqPush f) s = .next { s with out := quietResults s.cfg, trace := s.trace ++ [.txFullDrop] }) ∧
    (f.length.toNat ≤ s.cfg.maxFrameLen → s.txq.count ≠ s.cfg.nTx →
      exec (.txqPush f) s = .next { s with txq := pushed s.cfg.nTx f s.txq, out := quietResults s.cfg })

/-- RXQ.PUSH: an over-long packet is illegal; a push on a full RXQ evicts the oldest; the packet is stored at BACK
(rules R184, R194). -/
def Obligations.RxqPushEvictsTheOldest : Prop :=
  ∀ (s : State) (p : Packet), s.Inv →
    (p.plen.toNat > s.cfg.mp →
      exec (.rxqPush p) s = .next { s with
        out := { quietResults s.cfg with status := 1#1 }, trace := s.trace ++ [.illegalCmd] }) ∧
    (p.plen.toNat ≤ s.cfg.mp → s.rxq.count = s.cfg.nRx →
      exec (.rxqPush p) s = .next { s with
        rxq := evictPushed s.cfg.nRx p s.rxq, out := quietResults s.cfg, trace := s.trace ++ [.rxEvict] }) ∧
    (p.plen.toNat ≤ s.cfg.mp → s.rxq.count ≠ s.cfg.nRx →
      exec (.rxqPush p) s = .next { s with rxq := pushed s.cfg.nRx p s.rxq, out := quietResults s.cfg })

/-- TXQ.POP, RXQ.POP and READ of a non-empty queue give the element in slot FRONT, advance FRONT and decrement COUNT
(sections 1 and 2 of 43_fifo.md, section 1 of 44_engine.md). -/
def Obligations.PopTakesTheOldest : Prop :=
  (∀ (s : State) (f : Frame), 0 < s.txq.count → s.txq.slots[s.txq.front]? = some f →
    exec .txqPop s = .next { s with
      txq := popped s.cfg.nTx s.txq, out := { quietResults s.cfg with frame := f } }) ∧
  (∀ (s : State) (p : Packet), 0 < s.rxq.count → s.rxq.slots[s.rxq.front]? = some p →
    exec .rxqPop s = .next { s with
      rxq := popped s.cfg.nRx s.rxq, out := { quietResults s.cfg with packet := p } } ∧
    exec .read s = .next { s with
      rxq := popped s.cfg.nRx s.rxq, out := { quietResults s.cfg with packet := p } })

/-- TXQ.PEEK and RXQ.PEEK of a non-empty queue give the element in slot FRONT and write nothing (section 1 of 43_fifo.md). -/
def Obligations.PeekReadsTheOldest : Prop :=
  (∀ (s : State) (f : Frame), 0 < s.txq.count → s.txq.slots[s.txq.front]? = some f →
    exec .txqPeek s = .next { s with out := { quietResults s.cfg with frame := f } }) ∧
  (∀ (s : State) (p : Packet), 0 < s.rxq.count → s.rxq.slots[s.rxq.front]? = some p →
    exec .rxqPeek s = .next { s with out := { quietResults s.cfg with packet := p } })

/-- On an empty queue the pops and peeks complete, write no register, and a pop tells the trace. The element they return
is left open: 90_conflicts.md (C5) and 93_implementation_defined.md (I1, I2) let no claim depend on it (log entry 4). -/
def Obligations.PopOrPeekOfEmptyChangesNothing : Prop :=
  (∀ s : State, s.txq.count = 0 →
    (∃ f, exec .txqPop s = .next { s with
      out := { quietResults s.cfg with frame := f }, trace := s.trace ++ [.popEmpty] }) ∧
    (∃ f, exec .txqPeek s = .next { s with out := { quietResults s.cfg with frame := f } })) ∧
  (∀ s : State, s.rxq.count = 0 →
    (∃ p, exec .rxqPop s = .next { s with
      out := { quietResults s.cfg with packet := p }, trace := s.trace ++ [.popEmpty] }) ∧
    (∃ p, exec .read s = .next { s with
      out := { quietResults s.cfg with packet := p }, trace := s.trace ++ [.popEmpty] }) ∧
    (∃ p, exec .rxqPeek s = .next { s with out := { quietResults s.cfg with packet := p } }))

/-- TXQ.COUNT and RXQ.COUNT return COUNT zero-extended, AVAILABLE whether RXQ.COUNT exceeds 0; none writes state
(rules R188, R193, R212). -/
def Obligations.CountAndAvailableReadTheCount : Prop :=
  ∀ s : State,
    exec .txqCount s = .next { s with out := { quietResults s.cfg with count := BitVec.ofNat 8 s.txq.count } } ∧
    exec .rxqCount s = .next { s with out := { quietResults s.cfg with count := BitVec.ofNat 8 s.rxq.count } } ∧
    exec .available s = .next { s with
      out := { quietResults s.cfg with bool := if s.rxq.count > 0 then 1#1 else 0#1 } }

/-- TXQ.CLEAR and RXQ.CLEAR set COUNT, FRONT and BACK to 0 and write no slot; RXQ.CLEAR does not touch the parse state
(rules R187, R192, R197). -/
def Obligations.ClearEmptiesTheQueue : Prop :=
  ∀ s : State,
    exec .txqClear s = .next { s with
      txq := { s.txq with count := 0, front := 0, back := 0 }, out := quietResults s.cfg } ∧
    exec .rxqClear s = .next { s with
      rxq := { s.rxq with count := 0, front := 0, back := 0 }, out := quietResults s.cfg }

/-- The circular buffer refines the bounded queue of its contents: COUNT is their number; a full PushDrop keeps them, a
full PushEvict drops the head, and either else appends; Pop returns the head and leaves the tail; Peek returns the head;
Clear leaves none; and every operation keeps the FIFO invariant (section 1 of 43_fifo.md). What Pop and Peek return on an
empty FIFO is not stated. -/
def Obligations.CircularBufferRefinesItsContents : Prop :=
  ∀ (α : Type) (n : Nat) (ok : α → Prop) (q : Fifo α) (x d : α), 1 ≤ n → q.Wf n ok → ok x →
    q.count = (q.contents n).length ∧
    (∃ q' evs, fifoPushDrop n x q = .next (q', evs) ∧ q'.Wf n ok ∧
      q'.contents n = if (q.contents n).length = n then q.contents n else q.contents n ++ [x]) ∧
    (∃ q' evs, fifoPushEvict n x q = .next (q', evs) ∧ q'.Wf n ok ∧
      q'.contents n = (if (q.contents n).length = n then (q.contents n).tail else q.contents n) ++ [x]) ∧
    (∃ r, fifoPop n d q = .next r ∧ r.fifo.Wf n ok ∧ r.fifo.contents n = (q.contents n).tail ∧
      ∀ y ys, q.contents n = y :: ys → r.item = y) ∧
    (∃ y, fifoPeek d q = .next y ∧ ∀ z zs, q.contents n = z :: zs → y = z) ∧
    ((fifoClear q).Wf n ok ∧ (fifoClear q).contents n = [])

/-- The policy-swap test: from an empty queue of capacity n, any pushes leave the first n elements under drop-newest and
the last n under evict-oldest (section 3 of 43_fifo.md). -/
def Obligations.PushPoliciesKeepFirstOrLast : Prop :=
  ∀ (α : Type) (n : Nat) (q : Fifo α) (xs : List α), 1 ≤ n → q.Wf n (fun _ => True) → q.count = 0 →
    (∃ q', pushAll (fifoPushDrop n) xs q = .next q' ∧ q'.contents n = xs.take n) ∧
    (∃ q', pushAll (fifoPushEvict n) xs q = .next q' ∧ q'.contents n = xs.drop (xs.length - n))

/-! ## The packet engine -/

/-- NOP returns status 0 and changes nothing (rule R210). -/
def Obligations.NopChangesNothing : Prop :=
  ∀ s : State, exec .nop s = .next { s with out := quietResults s.cfg }

/-- SERVICE: the bytes it reads, at most BytesPerServiceTick of those that wait, are presented to the deframer in order,
each with its clock reading; then the oldest frame, if any, leaves TXQ and its first `length` bytes are one channel
write (sections 1 and 2 of 44_engine.md). What a reading answers is the model's choice: the next supplied sample modulo
2^TW, else the free value of the counter `drawn`, whatever that is (log entry 5). -/
def Obligations.ServiceReadsThenSends : Prop :=
  ∀ s : State, s.Inv →
    ∃ u, presentBytes ((s.chIn.take (serviceReads s)).zip ((List.range (serviceReads s)).map (serviceTime s)))
        (serviceTaken s) = .next u ∧
      (s.txq.count = 0 → exec .service s = .next { u with out := quietResults s.cfg }) ∧
      (∀ f, s.txq.count ≠ 0 → s.txq.slots[s.txq.front]? = some f →
        exec .service s = .next { u with
          txq := popped s.cfg.nTx s.txq
          chOut := s.chOut ++ [f.bytes.take f.length.toNat]
          out := quietResults s.cfg })

/-- The work of one SERVICE is bounded: it takes k bytes from the front of the channel, at most BytesPerServiceTick; it
reads the clock at most k times, samples taken from the front of those supplied and free values counted together; and it
makes at most one write of at most MaxFrameLen bytes (section 3 of 44_engine.md). That a reading takes a supplied sample or
advances the counter `drawn` is the model's choice (log entry 5). -/
def Obligations.ServiceWorkIsBounded : Prop :=
  ∀ s t : State, s.Inv → exec .service s = .next t →
    (∃ k samples free, k ≤ s.cfg.bpt ∧ k ≤ s.chIn.length ∧ t.chIn = s.chIn.drop k ∧
      samples ≤ s.clock.length ∧ t.clock = s.clock.drop samples ∧ t.drawn = s.drawn + free ∧ samples + free ≤ k) ∧
    (∃ writes, t.chOut = s.chOut ++ writes ∧ writes.length ≤ 1 ∧ ∀ w ∈ writes, w.length ≤ s.cfg.maxFrameLen)

/-- One SERVICE delivers at most 1 + floor((BytesPerServiceTick - 1) / 5) packets (section 2 of 70_reset_and_hazards.md). -/
def Obligations.ServiceDeliveriesAreBounded : Prop :=
  ∀ s t : State, s.Inv → exec .service s = .next t →
    ∃ evs, t.trace = s.trace ++ evs ∧ deliveries evs ≤ 1 + (s.cfg.bpt - 1) / 5

/-- A frame queued by SEND on an empty TXQ is written by the very next SERVICE, whole and alone, whatever that SERVICE
reads (section 2 of 70_reset_and_hazards.md). -/
def Obligations.SendThenServiceWritesTheFrame : Prop :=
  ∀ (s : State) (id plen : Byte) (payload : List Byte), s.Inv → payload.length = s.cfg.mp → plen.toNat ≤ s.cfg.mp →
    s.txq.count = 0 →
    ∃ t u, exec (.send id plen payload) s = .next t ∧ exec .service t = .next u ∧
      u.chOut = s.chOut ++ [packetWire s.cfg id (payload.take plen.toNat)] ∧ u.txq.count = 0

/-- No host-port operation reports a drop, a timeout, an overflow or an eviction: its status is 0; NOP, SEND and SERVICE
drive every result port quiet, whatever they met; AVAILABLE drives only `bool`, with whether RXQ holds a packet; READ
drives only `packet`, with RXQ's oldest where there is one (rule R220). -/
def Obligations.HostPortReportsNothing : Prop :=
  ∀ (i : Instr) (s t : State), (encode i).port = .host → exec i s = .next t →
    t.out.status = 0#1 ∧
    (i.opcode ∈ [Opcode.nop, .send, .service] → t.out = quietResults s.cfg) ∧
    (i = .available → t.out = { quietResults s.cfg with bool := if s.rxq.count > 0 then 1#1 else 0#1 }) ∧
    (i = .read → ∃ p, t.out = { quietResults s.cfg with packet := p } ∧
      (0 < s.rxq.count → s.rxq.slots[s.rxq.front]? = some p))

/-! ## Whole-machine rules -/

/-- No step changes a build-time constant (section 7 of 10_state.md, section 6 of 20_memory.md). -/
def Obligations.ConstantsNeverChange : Prop :=
  ∀ s t : State, step s = .next t → t.cfg = s.cfg

/-- Only SERVICE uses the channel and the clock (section 3 of 60_exceptions.md). -/
def Obligations.OnlyServiceUsesChannelAndClock : Prop :=
  ∀ (i : Instr) (s t : State), exec i s = .next t → i ≠ .service →
    t.chIn = s.chIn ∧ t.chOut = s.chOut ∧ t.clock = s.clock ∧ t.drawn = s.drawn

/-- COUNT, PEEK, AVAILABLE, CRC8, CRC8_STEP, ENCODE and NOP are pure and idempotent: they change nothing but the result
ports and the trace, and a second issue gives the same results (section 3 of 20_memory.md). -/
def Obligations.PureOperationsAreIdempotent : Prop :=
  ∀ (i : Instr) (s t : State),
    i.opcode ∈ [Opcode.nop, .available, .crc8, .crc8Step, .encode, .txqCount, .txqPeek, .rxqCount, .rxqPeek] →
    exec i s = .next t →
    sameButOutputs s t ∧ ∃ u, exec i t = .next u ∧ sameButOutputs t u ∧ u.out = t.out

/-- The result ports and the trace are never read: a step from two states that differ only in them makes the same
change and adds the same events, and a command answers the same results (section 7 of 10_state.md, section 1 of
60_exceptions.md). That the model keeps both is its own choice (log entry 7). -/
def Obligations.ResultsAndTraceAreNeverRead : Prop :=
  ∀ (s t : State) (r : Results) (evs : List TraceEvent), step s = .next t →
    ∃ t' added, step { s with out := r, trace := evs } = .next t' ∧ sameButOutputs t t' ∧
      t.trace = s.trace ++ added ∧ t'.trace = evs ++ added ∧
      ∀ c rest, s.inputs = .command c :: rest → t'.out = t.out

/-- What reset leaves unspecified, and every stale register and free slot, can never be observed: from two states within
the invariant that agree on what a rule may still read, a step makes states that agree again, with the same results, the
same channel output and the same trace (sections 5 and 9 of 10_state.md). -/
def Obligations.UnspecifiedStateIsUnobservable : Prop :=
  ∀ s t s' : State, s.Inv → t.Inv → State.Alike s t → step s = .next s' →
    ∃ t', step t = .next t' ∧ State.Alike s' t'

end
end

