-- ==== Sys2Proof/Laws/State.lean ====
section
/-! SUPPORT. One lemma for each field of State after each state update of Machine/Ops.lean, and for each field of the
parse state after the two updates of Machine/Flags.lean. -/

namespace Sys2Proof.Machine

variable (s : State)

@[simp] theorem State.withRx_cfg (rx : Deframer) : (s.withRx rx).cfg = s.cfg := rfl
@[simp] theorem State.withRx_rx (rx : Deframer) : (s.withRx rx).rx = rx := rfl
@[simp] theorem State.withRx_txq (rx : Deframer) : (s.withRx rx).txq = s.txq := rfl
@[simp] theorem State.withRx_rxq (rx : Deframer) : (s.withRx rx).rxq = s.rxq := rfl
@[simp] theorem State.withRx_chIn (rx : Deframer) : (s.withRx rx).chIn = s.chIn := rfl
@[simp] theorem State.withRx_chOut (rx : Deframer) : (s.withRx rx).chOut = s.chOut := rfl
@[simp] theorem State.withRx_clock (rx : Deframer) : (s.withRx rx).clock = s.clock := rfl
@[simp] theorem State.withRx_drawn (rx : Deframer) : (s.withRx rx).drawn = s.drawn := rfl
@[simp] theorem State.withRx_inputs (rx : Deframer) : (s.withRx rx).inputs = s.inputs := rfl
@[simp] theorem State.withRx_out (rx : Deframer) : (s.withRx rx).out = s.out := rfl
@[simp] theorem State.withRx_trace (rx : Deframer) : (s.withRx rx).trace = s.trace := rfl

@[simp] theorem State.withTxq_cfg (q : Fifo Frame) : (s.withTxq q).cfg = s.cfg := rfl
@[simp] theorem State.withTxq_rx (q : Fifo Frame) : (s.withTxq q).rx = s.rx := rfl
@[simp] theorem State.withTxq_txq (q : Fifo Frame) : (s.withTxq q).txq = q := rfl
@[simp] theorem State.withTxq_rxq (q : Fifo Frame) : (s.withTxq q).rxq = s.rxq := rfl
@[simp] theorem State.withTxq_chIn (q : Fifo Frame) : (s.withTxq q).chIn = s.chIn := rfl
@[simp] theorem State.withTxq_chOut (q : Fifo Frame) : (s.withTxq q).chOut = s.chOut := rfl
@[simp] theorem State.withTxq_clock (q : Fifo Frame) : (s.withTxq q).clock = s.clock := rfl
@[simp] theorem State.withTxq_drawn (q : Fifo Frame) : (s.withTxq q).drawn = s.drawn := rfl
@[simp] theorem State.withTxq_inputs (q : Fifo Frame) : (s.withTxq q).inputs = s.inputs := rfl
@[simp] theorem State.withTxq_out (q : Fifo Frame) : (s.withTxq q).out = s.out := rfl
@[simp] theorem State.withTxq_trace (q : Fifo Frame) : (s.withTxq q).trace = s.trace := rfl

@[simp] theorem State.withRxq_cfg (q : Fifo Packet) : (s.withRxq q).cfg = s.cfg := rfl
@[simp] theorem State.withRxq_rx (q : Fifo Packet) : (s.withRxq q).rx = s.rx := rfl
@[simp] theorem State.withRxq_txq (q : Fifo Packet) : (s.withRxq q).txq = s.txq := rfl
@[simp] theorem State.withRxq_rxq (q : Fifo Packet) : (s.withRxq q).rxq = q := rfl
@[simp] theorem State.withRxq_chIn (q : Fifo Packet) : (s.withRxq q).chIn = s.chIn := rfl
@[simp] theorem State.withRxq_chOut (q : Fifo Packet) : (s.withRxq q).chOut = s.chOut := rfl
@[simp] theorem State.withRxq_clock (q : Fifo Packet) : (s.withRxq q).clock = s.clock := rfl
@[simp] theorem State.withRxq_drawn (q : Fifo Packet) : (s.withRxq q).drawn = s.drawn := rfl
@[simp] theorem State.withRxq_inputs (q : Fifo Packet) : (s.withRxq q).inputs = s.inputs := rfl
@[simp] theorem State.withRxq_out (q : Fifo Packet) : (s.withRxq q).out = s.out := rfl
@[simp] theorem State.withRxq_trace (q : Fifo Packet) : (s.withRxq q).trace = s.trace := rfl

@[simp] theorem State.withChIn_cfg (bytes : List Byte) : (s.withChIn bytes).cfg = s.cfg := rfl
@[simp] theorem State.withChIn_rx (bytes : List Byte) : (s.withChIn bytes).rx = s.rx := rfl
@[simp] theorem State.withChIn_txq (bytes : List Byte) : (s.withChIn bytes).txq = s.txq := rfl
@[simp] theorem State.withChIn_rxq (bytes : List Byte) : (s.withChIn bytes).rxq = s.rxq := rfl
@[simp] theorem State.withChIn_chIn (bytes : List Byte) : (s.withChIn bytes).chIn = bytes := rfl
@[simp] theorem State.withChIn_chOut (bytes : List Byte) : (s.withChIn bytes).chOut = s.chOut := rfl
@[simp] theorem State.withChIn_clock (bytes : List Byte) : (s.withChIn bytes).clock = s.clock := rfl
@[simp] theorem State.withChIn_drawn (bytes : List Byte) : (s.withChIn bytes).drawn = s.drawn := rfl
@[simp] theorem State.withChIn_inputs (bytes : List Byte) : (s.withChIn bytes).inputs = s.inputs := rfl
@[simp] theorem State.withChIn_out (bytes : List Byte) : (s.withChIn bytes).out = s.out := rfl
@[simp] theorem State.withChIn_trace (bytes : List Byte) : (s.withChIn bytes).trace = s.trace := rfl

@[simp] theorem State.withChOut_cfg (writes : List (List Byte)) : (s.withChOut writes).cfg = s.cfg := rfl
@[simp] theorem State.withChOut_rx (writes : List (List Byte)) : (s.withChOut writes).rx = s.rx := rfl
@[simp] theorem State.withChOut_txq (writes : List (List Byte)) : (s.withChOut writes).txq = s.txq := rfl
@[simp] theorem State.withChOut_rxq (writes : List (List Byte)) : (s.withChOut writes).rxq = s.rxq := rfl
@[simp] theorem State.withChOut_chIn (writes : List (List Byte)) : (s.withChOut writes).chIn = s.chIn := rfl
@[simp] theorem State.withChOut_chOut (writes : List (List Byte)) : (s.withChOut writes).chOut = writes := rfl
@[simp] theorem State.withChOut_clock (writes : List (List Byte)) : (s.withChOut writes).clock = s.clock := rfl
@[simp] theorem State.withChOut_drawn (writes : List (List Byte)) : (s.withChOut writes).drawn = s.drawn := rfl
@[simp] theorem State.withChOut_inputs (writes : List (List Byte)) : (s.withChOut writes).inputs = s.inputs := rfl
@[simp] theorem State.withChOut_out (writes : List (List Byte)) : (s.withChOut writes).out = s.out := rfl
@[simp] theorem State.withChOut_trace (writes : List (List Byte)) : (s.withChOut writes).trace = s.trace := rfl

@[simp] theorem State.withClock_cfg (samples : List Time) (k : Nat) : (s.withClock samples k).cfg = s.cfg := rfl
@[simp] theorem State.withClock_rx (samples : List Time) (k : Nat) : (s.withClock samples k).rx = s.rx := rfl
@[simp] theorem State.withClock_txq (samples : List Time) (k : Nat) : (s.withClock samples k).txq = s.txq := rfl
@[simp] theorem State.withClock_rxq (samples : List Time) (k : Nat) : (s.withClock samples k).rxq = s.rxq := rfl
@[simp] theorem State.withClock_chIn (samples : List Time) (k : Nat) : (s.withClock samples k).chIn = s.chIn := rfl
@[simp] theorem State.withClock_chOut (samples : List Time) (k : Nat) : (s.withClock samples k).chOut = s.chOut := rfl
@[simp] theorem State.withClock_clock (samples : List Time) (k : Nat) : (s.withClock samples k).clock = samples := rfl
@[simp] theorem State.withClock_drawn (samples : List Time) (k : Nat) : (s.withClock samples k).drawn = k := rfl
@[simp] theorem State.withClock_inputs (samples : List Time) (k : Nat) : (s.withClock samples k).inputs = s.inputs := rfl
@[simp] theorem State.withClock_out (samples : List Time) (k : Nat) : (s.withClock samples k).out = s.out := rfl
@[simp] theorem State.withClock_trace (samples : List Time) (k : Nat) : (s.withClock samples k).trace = s.trace := rfl

@[simp] theorem State.withInputs_cfg (ins : List Input) : (s.withInputs ins).cfg = s.cfg := rfl
@[simp] theorem State.withInputs_rx (ins : List Input) : (s.withInputs ins).rx = s.rx := rfl
@[simp] theorem State.withInputs_txq (ins : List Input) : (s.withInputs ins).txq = s.txq := rfl
@[simp] theorem State.withInputs_rxq (ins : List Input) : (s.withInputs ins).rxq = s.rxq := rfl
@[simp] theorem State.withInputs_chIn (ins : List Input) : (s.withInputs ins).chIn = s.chIn := rfl
@[simp] theorem State.withInputs_chOut (ins : List Input) : (s.withInputs ins).chOut = s.chOut := rfl
@[simp] theorem State.withInputs_clock (ins : List Input) : (s.withInputs ins).clock = s.clock := rfl
@[simp] theorem State.withInputs_drawn (ins : List Input) : (s.withInputs ins).drawn = s.drawn := rfl
@[simp] theorem State.withInputs_inputs (ins : List Input) : (s.withInputs ins).inputs = ins := rfl
@[simp] theorem State.withInputs_out (ins : List Input) : (s.withInputs ins).out = s.out := rfl
@[simp] theorem State.withInputs_trace (ins : List Input) : (s.withInputs ins).trace = s.trace := rfl

@[simp] theorem State.emits_cfg (evs : List TraceEvent) : (s.emits evs).cfg = s.cfg := rfl
@[simp] theorem State.emits_rx (evs : List TraceEvent) : (s.emits evs).rx = s.rx := rfl
@[simp] theorem State.emits_txq (evs : List TraceEvent) : (s.emits evs).txq = s.txq := rfl
@[simp] theorem State.emits_rxq (evs : List TraceEvent) : (s.emits evs).rxq = s.rxq := rfl
@[simp] theorem State.emits_chIn (evs : List TraceEvent) : (s.emits evs).chIn = s.chIn := rfl
@[simp] theorem State.emits_chOut (evs : List TraceEvent) : (s.emits evs).chOut = s.chOut := rfl
@[simp] theorem State.emits_clock (evs : List TraceEvent) : (s.emits evs).clock = s.clock := rfl
@[simp] theorem State.emits_drawn (evs : List TraceEvent) : (s.emits evs).drawn = s.drawn := rfl
@[simp] theorem State.emits_inputs (evs : List TraceEvent) : (s.emits evs).inputs = s.inputs := rfl
@[simp] theorem State.emits_out (evs : List TraceEvent) : (s.emits evs).out = s.out := rfl
@[simp] theorem State.emits_trace (evs : List TraceEvent) : (s.emits evs).trace = s.trace ++ evs := rfl

@[simp] theorem State.emit_cfg (ev : TraceEvent) : (s.emit ev).cfg = s.cfg := rfl
@[simp] theorem State.emit_rx (ev : TraceEvent) : (s.emit ev).rx = s.rx := rfl
@[simp] theorem State.emit_txq (ev : TraceEvent) : (s.emit ev).txq = s.txq := rfl
@[simp] theorem State.emit_rxq (ev : TraceEvent) : (s.emit ev).rxq = s.rxq := rfl
@[simp] theorem State.emit_chIn (ev : TraceEvent) : (s.emit ev).chIn = s.chIn := rfl
@[simp] theorem State.emit_chOut (ev : TraceEvent) : (s.emit ev).chOut = s.chOut := rfl
@[simp] theorem State.emit_clock (ev : TraceEvent) : (s.emit ev).clock = s.clock := rfl
@[simp] theorem State.emit_drawn (ev : TraceEvent) : (s.emit ev).drawn = s.drawn := rfl
@[simp] theorem State.emit_inputs (ev : TraceEvent) : (s.emit ev).inputs = s.inputs := rfl
@[simp] theorem State.emit_out (ev : TraceEvent) : (s.emit ev).out = s.out := rfl
@[simp] theorem State.emit_trace (ev : TraceEvent) : (s.emit ev).trace = s.trace ++ [ev] := rfl

@[simp] theorem State.respond_cfg (r : Results) : (s.respond r).cfg = s.cfg := rfl
@[simp] theorem State.respond_rx (r : Results) : (s.respond r).rx = s.rx := rfl
@[simp] theorem State.respond_txq (r : Results) : (s.respond r).txq = s.txq := rfl
@[simp] theorem State.respond_rxq (r : Results) : (s.respond r).rxq = s.rxq := rfl
@[simp] theorem State.respond_chIn (r : Results) : (s.respond r).chIn = s.chIn := rfl
@[simp] theorem State.respond_chOut (r : Results) : (s.respond r).chOut = s.chOut := rfl
@[simp] theorem State.respond_clock (r : Results) : (s.respond r).clock = s.clock := rfl
@[simp] theorem State.respond_drawn (r : Results) : (s.respond r).drawn = s.drawn := rfl
@[simp] theorem State.respond_inputs (r : Results) : (s.respond r).inputs = s.inputs := rfl
@[simp] theorem State.respond_out (r : Results) : (s.respond r).out = r := rfl
@[simp] theorem State.respond_trace (r : Results) : (s.respond r).trace = s.trace := rfl

@[simp] theorem State.done_cfg : (s.done).cfg = s.cfg := rfl
@[simp] theorem State.done_rx : (s.done).rx = s.rx := rfl
@[simp] theorem State.done_txq : (s.done).txq = s.txq := rfl
@[simp] theorem State.done_rxq : (s.done).rxq = s.rxq := rfl
@[simp] theorem State.done_chIn : (s.done).chIn = s.chIn := rfl
@[simp] theorem State.done_chOut : (s.done).chOut = s.chOut := rfl
@[simp] theorem State.done_clock : (s.done).clock = s.clock := rfl
@[simp] theorem State.done_drawn : (s.done).drawn = s.drawn := rfl
@[simp] theorem State.done_inputs : (s.done).inputs = s.inputs := rfl
@[simp] theorem State.done_out : (s.done).out = quietResults s.cfg := rfl
@[simp] theorem State.done_trace : (s.done).trace = s.trace := rfl

variable (d : Deframer)

@[simp] theorem Deframer.idle_bc : d.idle.bc = 0#8 := rfl
@[simp] theorem Deframer.idle_dlen : d.idle.dlen = d.dlen := rfl
@[simp] theorem Deframer.idle_did : d.idle.did = d.did := rfl
@[simp] theorem Deframer.idle_esc : d.idle.esc = false := rfl
@[simp] theorem Deframer.idle_pbuf : d.idle.pbuf = d.pbuf := rfl
@[simp] theorem Deframer.idle_pidx : d.idle.pidx = d.pidx := rfl
@[simp] theorem Deframer.idle_tstart : d.idle.tstart = d.tstart := rfl
@[simp] theorem Deframer.escapePending_bc : d.escapePending.bc = d.bc + 1#8 := rfl
@[simp] theorem Deframer.escapePending_dlen : d.escapePending.dlen = d.dlen := rfl
@[simp] theorem Deframer.escapePending_did : d.escapePending.did = d.did := rfl
@[simp] theorem Deframer.escapePending_esc : d.escapePending.esc = true := rfl
@[simp] theorem Deframer.escapePending_pbuf : d.escapePending.pbuf = d.pbuf := rfl
@[simp] theorem Deframer.escapePending_pidx : d.escapePending.pidx = d.pidx := rfl
@[simp] theorem Deframer.escapePending_tstart : d.escapePending.tstart = d.tstart := rfl

end Sys2Proof.Machine
end

