-- ==== Sys2Proof/Laws/Ops.lean ====
section
/-! SUPPORT. One lemma for each shared operation: when it answers next, and with what. -/

namespace Sys2Proof.Machine

variable {α β : Type}

/-! ## Outcomes in sequence -/

@[simp] theorem bindNext_next (a : α) (k : α → Host.Outcome β Fault Refusal) : bindNext (.next a) k = k a := rfl

@[simp] theorem bindNext_fault (f : Fault) (k : α → Host.Outcome β Fault Refusal) :
    bindNext (.fault f) k = .fault f := rfl

@[simp] theorem bindNext_refused (r : Refusal) (k : α → Host.Outcome β Fault Refusal) :
    bindNext (.refused r) k = .refused r := rfl

theorem bindNext_eq_next {o : Host.Outcome α Fault Refusal} {k : α → Host.Outcome β Fault Refusal} {b : β} :
    bindNext o k = .next b ↔ ∃ a, o = .next a ∧ k a = .next b := by
  cases o <;> simp

/-- Running two continuations after another is running the second after the first. -/
theorem bindNext_assoc {γ : Type} (o : Host.Outcome α Fault Refusal) (f : α → Host.Outcome β Fault Refusal)
    (g : β → Host.Outcome γ Fault Refusal) :
    bindNext (bindNext o f) g = bindNext o fun a => bindNext (f a) g := by
  cases o <;> rfl

/-! ## Storage primitives -/

theorem bufWrite_eq_next {i : Nat} {v : Byte} {b b' : List Byte} :
    bufWrite i v b = .next b' ↔ i < b.length ∧ b' = b.set i v := by
  unfold bufWrite; split <;> simp_all [eq_comm]

theorem bufRead_eq_next {i : Nat} {v : Byte} {b : List Byte} : bufRead i b = .next v ↔ b[i]? = some v := by
  unfold bufRead; split <;> simp_all

theorem slotWrite_eq_next {i : Nat} {e : α} {q q' : List α} :
    slotWrite i e q = .next q' ↔ i < q.length ∧ q' = q.set i e := by
  unfold slotWrite; split <;> simp_all [eq_comm]

theorem slotRead_eq_next {i : Nat} {e : α} {q : List α} : slotRead i q = .next e ↔ q[i]? = some e := by
  unfold slotRead; split <;> simp_all

/-! ## Port widths -/

/-- The first bytes of the list, then zeros. -/
theorem fitBytes_eq (n : Nat) (l : List Byte) : fitBytes n l = l.take n ++ List.replicate (n - l.length) 0#8 := by
  induction n generalizing l with
  | zero => simp [fitBytes]
  | succ n ih =>
    cases l with
    | nil => simp [fitBytes, ih, List.replicate_succ]
    | cons b l => simp [fitBytes, ih]

@[simp] theorem length_fitBytes (n : Nat) (l : List Byte) : (fitBytes n l).length = n := by
  simp [fitBytes_eq]; omega

/-- A list of the port's own width is what the port carries. -/
theorem fitBytes_of_length {n : Nat} {l : List Byte} (h : l.length = n) : fitBytes n l = l := by
  subst h; simp [fitBytes_eq]

/-- A shorter list is followed by zeros. -/
theorem fitBytes_of_le {n : Nat} {l : List Byte} (h : l.length ≤ n) :
    fitBytes n l = l ++ List.replicate (n - l.length) 0#8 := by
  simp [fitBytes_eq, List.take_of_length_le h]

/-- The start of a longer list. -/
theorem fitBytes_of_ge {n : Nat} {l : List Byte} (h : n ≤ l.length) : fitBytes n l = l.take n := by
  simp [fitBytes_eq, Nat.sub_eq_zero_of_le h]

/-- What a port carries fits it, so fitting again changes nothing. -/
@[simp] theorem fitBytes_fitBytes (n : Nat) (l : List Byte) : fitBytes n (fitBytes n l) = fitBytes n l :=
  fitBytes_of_length (length_fitBytes n l)

/-- The operand sequence of a length operand within its port (rule R95). -/
theorem operandSeq_of_le {n : Byte} {bytes : List Byte} (h : n.toNat ≤ bytes.length) :
    operandSeq n bytes = bytes.take n.toNat := fitBytes_of_ge h

@[simp] theorem length_operandSeq (n : Byte) (bytes : List Byte) : (operandSeq n bytes).length = n.toNat :=
  length_fitBytes _ _

/-! ## The clock -/

/-- A clock reading changes only what the clock agent holds, and its value is TW bits wide (rule R239). -/
theorem sampleNow_spec (s : State) :
    (sampleNow s).1 < 2 ^ s.cfg.tw ∧ ∃ samples k, (sampleNow s).2 = s.withClock samples k := by
  unfold sampleNow clockNow
  split
  · split
    · exact ⟨Nat.mod_lt _ (by positivity), _, _, rfl⟩
    · exact ⟨Nat.mod_lt _ (by positivity), _, _, rfl⟩
  · exact ⟨by positivity, s.clock, s.drawn, rfl⟩

/-- Without a clock every reading is 0 and nothing is taken (rule R217). -/
theorem sampleNow_absent {s : State} (h : s.cfg.clockPresent = false) : sampleNow s = (0, s) := by
  simp [sampleNow, h]

/-- A reading of a clock with no supplied value is the next free value (log entry 5). -/
theorem sampleNow_nil {s : State} (h : s.cfg.clockPresent = true) (hc : s.clock = []) :
    sampleNow s = (Config.freeTime s.drawn % 2 ^ s.cfg.tw, s.withClock [] (s.drawn + 1)) := by
  simp [sampleNow, clockNow, h, hc]

/-- A reading of a clock with a supplied value is that value, TW bits wide (rule R239). -/
theorem sampleNow_cons {s : State} {t : Time} {ts : List Time} (h : s.cfg.clockPresent = true)
    (hc : s.clock = t :: ts) : sampleNow s = (t % 2 ^ s.cfg.tw, s.withClock ts s.drawn) := by
  simp [sampleNow, clockNow, h, hc]

end Sys2Proof.Machine
end

