-- ==== Sys2Proof/Laws/Fifo.lean ====
section
/-! SUPPORT. The circular buffer against its list of contents: one lemma for each generic FIFO operation. -/

namespace Sys2Proof.Machine

variable {α : Type} {n : Nat} {ok : α → Prop} {q : Fifo α}

/-- The slot of the k-th element, oldest first. -/
theorem Fifo.Wf.slot_lt (h : q.Wf n ok) (k : Nat) : (q.front + k) % (n + 1) < q.slots.length := by
  rw [h.1]; exact Nat.mod_lt _ (by omega)

theorem Fifo.Wf.front_lt (h : q.Wf n ok) : q.front < q.slots.length := by
  have := h.1; have := h.2.1; omega

theorem Fifo.Wf.back_lt (h : q.Wf n ok) : q.back < q.slots.length := by
  rw [h.2.2.2.1]; exact h.slot_lt _

/-- With every index in range, contents is COUNT elements long, and its k-th is the k-th slot from FRONT (rule R43). -/
theorem Fifo.contents_eq_map (h : q.Wf n ok) :
    q.contents n = (List.range q.count).map fun k => q.slots[(q.front + k) % (n + 1)]'(h.slot_lt k) := by
  unfold Fifo.contents
  rw [← List.filterMap_eq_map]
  refine List.filterMap_congr fun k _ => ?_
  simp [List.getElem?_eq_getElem (h.slot_lt k)]

@[simp] theorem Fifo.length_contents (h : q.Wf n ok) : (q.contents n).length = q.count := by
  simp [Fifo.contents_eq_map h]

/-- The oldest element is in slot FRONT. -/
theorem Fifo.head_contents (h : q.Wf n ok) (hc : 0 < q.count) : (q.contents n).head? = q.slots[q.front]? := by
  have hf : q.front % (n + 1) = q.front := Nat.mod_eq_of_lt (by have := h.2.1; omega)
  obtain ⟨c, hc'⟩ : ∃ c, q.count = c + 1 := ⟨q.count - 1, by omega⟩
  simp [Fifo.contents_eq_map h, hc', List.range_succ_eq_map, hf, List.getElem?_eq_getElem h.front_lt]

/-- The slots before BACK are other slots than BACK, while there is room. -/
theorem index_ne_back {f c k : Nat} (hf : f ≤ n) (hk : k < c) (hc : c ≤ n) :
    (f + k) % (n + 1) ≠ (f + c) % (n + 1) := by
  rcases Nat.lt_or_ge (f + k) (n + 1) with h1 | h1 <;> rcases Nat.lt_or_ge (f + c) (n + 1) with h2 | h2
  · rw [Nat.mod_eq_of_lt h1, Nat.mod_eq_of_lt h2]; omega
  · rw [Nat.mod_eq_of_lt h1, Nat.mod_eq_sub_mod h2, Nat.mod_eq_of_lt (by omega)]; omega
  · omega
  · rw [Nat.mod_eq_sub_mod h1, Nat.mod_eq_sub_mod h2, Nat.mod_eq_of_lt (by omega), Nat.mod_eq_of_lt (by omega)]
    omega

/-- A push on a FIFO with room: it answers next, appends to the contents and keeps the invariant (rule R183). -/
theorem fifoInsert_spec (h : q.Wf n ok) (hc : q.count < n) {x : α} (hx : ok x) :
    ∃ q', fifoInsert n x q = .next q' ∧
      q' = { q with slots := q.slots.set q.back x, back := nextIndex n q.back, count := q.count + 1 } ∧
      q'.Wf n ok ∧ q'.contents n = q.contents n ++ [x] := by
  have hb := h.back_lt
  have hw : fifoInsert n x q =
      .next { q with slots := q.slots.set q.back x, back := nextIndex n q.back, count := q.count + 1 } := by
    simp [fifoInsert, slotWrite, hb]
  refine ⟨_, hw, rfl, ?_, ?_⟩
  · obtain ⟨h1, h2, h3, h4, h5⟩ := h
    refine ⟨by simpa using h1, h2, by simp; omega, ?_, ?_⟩
    · simp [nextIndex, h4, Nat.mod_add_mod, Nat.add_assoc]
    · intro y hy
      rcases List.mem_or_eq_of_mem_set hy with hy | rfl
      · exact h5 y hy
      · exact hx
  · have hb' : q.back = (q.front + q.count) % (n + 1) := h.2.2.2.1
    simp only [Fifo.contents, List.range_succ, List.filterMap_append]
    congr 1
    · refine List.filterMap_congr fun k hk => ?_
      rw [List.getElem?_set_ne]
      rw [hb']
      exact (index_ne_back h.2.1 (List.mem_range.1 hk) (by omega)).symm
    · simp [← hb', hb]

/-- Discarding the oldest: it drops the head of the contents and keeps the invariant (rules R184, R185). -/
theorem fifoDropOldest_spec (h : q.Wf n ok) (hc : 0 < q.count) :
    (fifoDropOldest n q).Wf n ok ∧ (fifoDropOldest n q).contents n = (q.contents n).tail := by
  constructor
  · obtain ⟨h1, h2, h3, h4, h5⟩ := h
    refine ⟨h1, ?_, ?_, ?_, h5⟩
    · exact Nat.le_of_lt_succ (Nat.mod_lt _ (by omega))
    · simp [fifoDropOldest]; omega
    · simp only [fifoDropOldest, nextIndex, h4, Nat.mod_add_mod]; congr 1; omega
  · obtain ⟨c, hc'⟩ : ∃ c, q.count = c + 1 := ⟨q.count - 1, by omega⟩
    simp only [Fifo.contents, fifoDropOldest, nextIndex, hc', List.range_succ_eq_map, Nat.add_sub_cancel]
    rw [List.filterMap_cons]
    have h0 : q.slots[(q.front + 0) % (n + 1)]? = some (q.slots[(q.front + 0) % (n + 1)]'(h.slot_lt 0)) :=
      List.getElem?_eq_getElem (h.slot_lt 0)
    rw [h0]
    simp only [List.tail_cons, List.filterMap_map]
    refine List.filterMap_congr fun k _ => ?_
    simp only [Function.comp, Nat.mod_add_mod]
    congr 2; omega

/-- A cleared FIFO is empty and keeps the invariant (rule R187). -/
theorem fifoClear_spec (h : q.Wf n ok) : (fifoClear q).Wf n ok ∧ (fifoClear q).contents n = [] := by
  obtain ⟨h1, -, -, -, h5⟩ := h
  exact ⟨⟨h1, by simp [fifoClear], by simp [fifoClear], by simp [fifoClear], h5⟩, by simp [Fifo.contents, fifoClear]⟩

/-- A FIFO after reset is empty and meets the invariant (rules R43, R50). -/
theorem Fifo.reset_spec {d : α} (hd : ok d) : (Fifo.reset n d).Wf n ok ∧ (Fifo.reset n d).contents n = [] := by
  refine ⟨⟨by simp [Fifo.reset], by simp [Fifo.reset], by simp [Fifo.reset], by simp [Fifo.reset], ?_⟩,
    by simp [Fifo.contents, Fifo.reset]⟩
  intro x hx
  rw [List.eq_of_mem_replicate hx]; exact hd

/-! ## What each operation can answer -/

/-- PushDrop in a state within the invariant: nothing on a full FIFO, else a push (rule R183). -/
theorem fifoPushDrop_cases (h : q.Wf n ok) {x : α} (hx : ok x) :
    (q.count = n ∧ fifoPushDrop n x q = .next (q, [.txFullDrop])) ∨
    (q.count < n ∧ ∃ q', fifoInsert n x q = .next q' ∧ fifoPushDrop n x q = .next (q', [])) := by
  by_cases hc : q.count = n
  · exact .inl ⟨hc, by simp [fifoPushDrop, hc]⟩
  · have hlt : q.count < n := by have := h.2.2.1; omega
    obtain ⟨q', hq, -⟩ := fifoInsert_spec h hlt hx
    exact .inr ⟨hlt, q', hq, by simp [fifoPushDrop, hc, hq]⟩

/-- PushEvict in a state within the invariant: a push, after discarding the oldest of a full FIFO (rule R184). -/
theorem fifoPushEvict_cases (h : q.Wf n ok) (hn : 1 ≤ n) {x : α} (hx : ok x) :
    (q.count = n ∧ ∃ q', fifoInsert n x (fifoDropOldest n q) = .next q' ∧
      fifoPushEvict n x q = .next (q', [.rxEvict])) ∨
    (q.count < n ∧ ∃ q', fifoInsert n x q = .next q' ∧ fifoPushEvict n x q = .next (q', [])) := by
  by_cases hc : q.count = n
  · have hd := (fifoDropOldest_spec h (by omega)).1
    obtain ⟨q', hq, -⟩ := fifoInsert_spec hd (by simp [fifoDropOldest]; omega) hx
    exact .inl ⟨hc, q', hq, by simp [fifoPushEvict, hc, hq]⟩
  · have hlt : q.count < n := by have := h.2.2.1; omega
    obtain ⟨q', hq, -⟩ := fifoInsert_spec h hlt hx
    exact .inr ⟨hlt, q', hq, by simp [fifoPushEvict, hc, hq]⟩

/-- Pop of an empty FIFO (rule R185). -/
theorem fifoPop_empty {d : α} (hc : q.count = 0) : fifoPop n d q = .next ⟨d, q, [.popEmpty]⟩ := by
  simp [fifoPop, hc]

/-- Pop of a FIFO that holds an element: the one in slot FRONT (rule R185). -/
theorem fifoPop_next {d x : α} (hc : 0 < q.count) (hx : q.slots[q.front]? = some x) :
    fifoPop n d q = .next ⟨x, fifoDropOldest n q, []⟩ := by
  simp [fifoPop, Nat.pos_iff_ne_zero.1 hc, slotRead, hx]

/-- In a state within the invariant, slot FRONT holds an element of the FIFO's kind. -/
theorem Fifo.Wf.front_slot (h : q.Wf n ok) : ∃ x, q.slots[q.front]? = some x ∧ ok x :=
  ⟨_, List.getElem?_eq_getElem h.front_lt, h.2.2.2.2 _ (List.getElem_mem _)⟩

/-! ## The two instances -/

/-- PushDrop on TXQ changes TXQ and the trace only (rule R183). -/
theorem txqPushDrop_next {x : Frame} {s t : State} (h : txqPushDrop x s = .next t) :
    ∃ q evs, t = (s.withTxq q).emits evs := by
  obtain ⟨r, -, h⟩ := bindNext_eq_next.1 h; cases h; exact ⟨_, _, rfl⟩

/-- PushEvict on RXQ changes RXQ and the trace only (rule R184). -/
theorem rxqPushEvict_next {x : Packet} {s t : State} (h : rxqPushEvict x s = .next t) :
    ∃ q evs, t = (s.withRxq q).emits evs := by
  obtain ⟨r, -, h⟩ := bindNext_eq_next.1 h; cases h; exact ⟨_, _, rfl⟩

/-- Pop on TXQ changes TXQ and the trace only (rule R185). -/
theorem txqTake_next {x : Frame} {s t : State} (h : txqTake s = .next (x, t)) :
    ∃ q evs, t = (s.withTxq q).emits evs := by
  obtain ⟨r, -, h⟩ := bindNext_eq_next.1 h; cases h; exact ⟨_, _, rfl⟩

/-- Pop on RXQ changes RXQ and the trace only (rule R185). -/
theorem rxqTake_next {x : Packet} {s t : State} (h : rxqTake s = .next (x, t)) :
    ∃ q evs, t = (s.withRxq q).emits evs := by
  obtain ⟨r, -, h⟩ := bindNext_eq_next.1 h; cases h; exact ⟨_, _, rfl⟩

/-- PushDrop on TXQ in a state within the invariant: nothing on a full TXQ, else the frame is stored (rule R183). -/
theorem txqPushDrop_spec {s : State} (h : s.Inv) {x : Frame} (hx : x.Ok s.cfg) :
    (s.txq.count = s.cfg.nTx ∧ txqPushDrop x s = .next (s.emit .txFullDrop)) ∨
    (s.txq.count ≠ s.cfg.nTx ∧ (Spec.pushed s.cfg.nTx x s.txq).Wf s.cfg.nTx (Frame.Ok s.cfg) ∧
      txqPushDrop x s = .next (s.withTxq (Spec.pushed s.cfg.nTx x s.txq))) := by
  rcases fifoPushDrop_cases h.2.2.1 hx with ⟨hc, hp⟩ | ⟨hc, q', hq, hp⟩
  · left; exact ⟨hc, by simp [txqPushDrop, hp]; rfl⟩
  · right
    obtain ⟨q'', hq'', he, hwf, -⟩ := fifoInsert_spec h.2.2.1 hc hx
    rw [hq] at hq''; cases hq''
    have : q' = Spec.pushed s.cfg.nTx x s.txq := by rw [he]; rfl
    subst this
    exact ⟨by omega, hwf, by simp [txqPushDrop, hp, State.emits, State.withTxq]⟩

end Sys2Proof.Machine
end

