-- ==== Sys2Proof/Laws/Stuffer.lean ====
section
/-! SUPPORT. The frame encoder against the rules' formulas in Safety.lean: stuffing, the frame length, and the two
answers of Encode. -/

namespace Sys2Proof.Machine

open Sys2Proof.Spec

/-- The feedback step is linear over XOR (rule R110). -/
theorem crcFeedback_xor (a b : Byte) : crcFeedback (a ^^^ b) = crcFeedback a ^^^ crcFeedback b := by
  unfold crcFeedback
  rw [BitVec.msb_xor, BitVec.shiftLeft_xor_distrib]
  have h : ∀ x y z : Byte, z ^^^ (x ^^^ y) = x ^^^ (z ^^^ y) := by
    intro x y z; rw [← BitVec.xor_assoc, BitVec.xor_comm z x, BitVec.xor_assoc]
  cases a.msb <;> cases b.msb <;> simp [h, BitVec.xor_comm]

/-- The rule's CRC formula is the model's (rule R112). -/
theorem crcOf_eq_crc8 (p : List Byte) : crcOf p = crc8 p := rfl

theorem stuffed_cons (cfg : Config) (y : Byte) (x : List Byte) :
    stuffed cfg (y :: x) = (if cfg.reserved y then [cfg.escapeByte, y] else [y]) ++ stuffed cfg x := by
  simp [stuffed, Config.reserved, or_assoc]

/-- The escape rule byte by byte is the model's recursion (rule R82). -/
theorem stuff_eq_stuffed (cfg : Config) (x : List Byte) : stuff cfg x = stuffed cfg x := by
  induction x with
  | nil => rfl
  | cons y x ih => rw [stuffed_cons, stuff]; split <;> simp [ih]

/-- Stuffing adds one byte for each reserved byte (rule R82). -/
theorem length_stuffed (cfg : Config) (x : List Byte) :
    (stuffed cfg x).length = x.length + x.countP cfg.reserved := by
  induction x with
  | nil => rfl
  | cons y x ih => rw [stuffed_cons, List.countP_cons]; split <;> simp_all <;> omega

theorem length_frameDraft (cfg : Config) (id : Byte) (p : List Byte) :
    (frameDraft cfg id p).length = frameLen cfg p := by
  simp [frameDraft, frameLen, stuff_eq_stuffed, extended, crcOf_eq_crc8]; omega

theorem length_packetWire (cfg : Config) (id : Byte) (p : List Byte) :
    (packetWire cfg id p).length = frameLen cfg p := by
  simp [packetWire, wire, frameLen]; omega

/-- A packet's frame fits MaxFrameLen (rule R124). -/
theorem frameLen_le {cfg : Config} {p : List Byte} (h : p.length ≤ cfg.mp) : frameLen cfg p ≤ cfg.maxFrameLen := by
  have := List.countP_le_length (p := cfg.reserved) (l := extended p)
  simp [frameLen, length_stuffed, Config.maxFrameLen, extended] at *; omega

/-- MaxFrameLen fits one byte (rule R10). -/
theorem maxFrameLen_le {cfg : Config} (h : cfg.Legal) : cfg.maxFrameLen ≤ 254 := by
  have := h.1; simp [Config.maxFrameLen]; omega

/-- The length byte of a packet's frame holds the frame length, with no wrap (rule R124). -/
theorem frameLen_byte {cfg : Config} (hl : cfg.Legal) {p : List Byte} (h : p.length ≤ cfg.mp) :
    (BitVec.ofNat 8 (frameLen cfg p)).toNat = frameLen cfg p := by
  have := maxFrameLen_le hl
  have := frameLen_le (cfg := cfg) h
  simp; omega

/-- The encoder's bytes are the frame of the rules (rules R80, R122). -/
theorem frameBytes_eq (cfg : Config) (id : Byte) (p : List Byte) : frameBytes cfg id p = packetWire cfg id p := by
  unfold frameBytes
  dsimp only
  rw [length_frameDraft]
  simp [frameDraft, packetWire, wire, stuff_eq_stuffed, extended, crcOf_eq_crc8]

/-- Encode accepts a payload of at most MP bytes (rules R121 to R123). -/
theorem encodeFrame_some {cfg : Config} (id : Byte) {p : List Byte} (h : p.length ≤ cfg.mp) :
    encodeFrame cfg id p = some (packetFrame cfg id p) := by
  have hl := frameLen_le (cfg := cfg) h
  simp only [encodeFrame, frameBytes_eq, packetFrame, length_packetWire]
  rw [if_neg (by omega), fitBytes_of_le (by rw [length_packetWire]; exact hl), length_packetWire]

/-- Encode refuses a longer payload (rule R121). -/
theorem encodeFrame_none {cfg : Config} (id : Byte) {p : List Byte} (h : cfg.mp < p.length) :
    encodeFrame cfg id p = none := by
  simp [encodeFrame]; omega

/-- The frame of a packet has its bytes as its value, and its `length` counts them (rules R40, R122). -/
theorem packetFrame_value {cfg : Config} (hl : cfg.Legal) (id : Byte) {p : List Byte} (h : p.length ≤ cfg.mp) :
    (packetFrame cfg id p).value = packetWire cfg id p ∧ (packetFrame cfg id p).length.toNat = frameLen cfg p := by
  have hn : (packetFrame cfg id p).length.toNat = frameLen cfg p := frameLen_byte hl h
  have hw := length_packetWire cfg id p
  refine ⟨?_, hn⟩
  unfold Frame.value; rw [hn]; unfold packetFrame
  rw [List.take_append_of_le_length (by omega), List.take_of_length_le (by omega)]

/-- The frame of a packet is a Frame of rule R40. -/
theorem packetFrame_ok {cfg : Config} (hl : cfg.Legal) (id : Byte) {p : List Byte} (h : p.length ≤ cfg.mp) :
    (packetFrame cfg id p).Ok cfg := by
  have hw := length_packetWire cfg id p
  have hf := frameLen_le (cfg := cfg) h
  have hn := (packetFrame_value hl id h).2
  exact ⟨by simp [Frame.Fits, packetFrame, hw]; omega, by rw [hn]; exact hf⟩

end Sys2Proof.Machine
end

