-- ==== Sys2Proof/Laws/Deframer.lean ====
section
/-! SUPPORT. The deframer: what a presented byte can change (`Received`), what each of its rules answers in a state within
the invariant, and that each keeps the invariant. -/

namespace Sys2Proof.Machine

/-- What any deframer work changes: parse state, RXQ and trace. -/
def Received (s t : State) : Prop := ∃ rx q evs, t = ((s.withRx rx).withRxq q).emits evs

/-- Emitting no event changes nothing. -/
theorem emits_nil (s : State) : s.emits [] = s := by simp [State.emits]

theorem Received.refl (s : State) : Received s s := ⟨s.rx, s.rxq, [], by simp [State.emits, State.withRx, State.withRxq]⟩

theorem Received.trans {s t u : State} (h : Received s t) (h' : Received t u) : Received s u := by
  obtain ⟨rx, q, evs, rfl⟩ := h
  obtain ⟨rx', q', evs', rfl⟩ := h'
  exact ⟨rx', q', evs ++ evs', by simp [State.emits, State.withRx, State.withRxq]⟩

theorem Received.withRx (s : State) (rx : Deframer) : Received s (s.withRx rx) :=
  ⟨rx, s.rxq, [], by simp [State.emits, State.withRx, State.withRxq]⟩

theorem Received.emit (s : State) (e : TraceEvent) : Received s (s.emit e) :=
  ⟨s.rx, s.rxq, [e], by simp [State.emit, State.emits, State.withRx, State.withRxq]⟩

theorem Received.push {s t : State} {x : Packet} (h : rxqPushEvict x s = .next t) : Received s t := by
  obtain ⟨r, -, hr⟩ := bindNext_eq_next.1 h
  cases hr
  exact ⟨s.rx, r.1, r.2, by simp [State.withRx, State.withRxq, State.emits]⟩

theorem Received.abandon (s : State) : Received s (abandon s) := Received.withRx _ _

/-- The guard changes the parse state and the trace only (rule R142). -/
theorem received_rxGuard (now : Time) (s : State) : Received s (rxGuard now s) := by
  unfold rxGuard
  split
  · exact (Received.emit _ _).trans (Received.abandon _)
  · exact Received.refl _

theorem received_idleRule (b : Byte) (now : Time) (s : State) : Received s (idleRule b now s) := by
  unfold idleRule; split
  · exact Received.withRx _ _
  · exact Received.emit _ _

theorem received_storeByte {b : Byte} {s t : State} (h : storeByte b s = .next t) : Received s t := by
  unfold storeByte at h; split at h
  · obtain ⟨buf, -, hr⟩ := bindNext_eq_next.1 h
    cases hr; exact Received.withRx _ _
  · cases h; exact (Received.emit _ _).trans (Received.abandon _)

theorem received_endRule {s t : State} (h : endRule s = .next t) : Received s t := by
  unfold endRule at h
  split at h
  · cases h; exact (Received.emit _ _).trans (Received.withRx _ _)
  split at h
  · cases h; exact (Received.emit _ _).trans (Received.withRx _ _)
  obtain ⟨c, -, h⟩ := bindNext_eq_next.1 h
  split at h
  · obtain ⟨u, hu, h⟩ := bindNext_eq_next.1 h
    cases h
    exact (Received.emit _ _).trans ((Received.push hu).trans (Received.withRx _ _))
  · cases h; exact (Received.emit _ _).trans (Received.withRx _ _)

theorem received_classify {b : Byte} {now : Time} {s t : State} (h : classify b now s = .next t) : Received s t := by
  unfold classify at h
  split at h
  · cases h; exact received_idleRule _ _ _
  split at h
  · cases h; exact Received.withRx _ _
  split at h
  · cases h; exact Received.withRx _ _
  split at h
  · exact received_storeByte h
  split at h
  · cases h; exact Received.withRx _ _
  split at h
  · exact received_endRule h
  · exact received_storeByte h

/-- A presented byte changes the parse state, RXQ and the trace only (rule R155). -/
theorem received_rxStep {b : Byte} {now : Time} {s t : State} (h : rxStep b now s = .next t) : Received s t :=
  (received_rxGuard now s).trans (received_classify h)

/-! ## Each rule in a state within the invariant -/

/-- The return to Idle keeps the deframer's part of the invariant (rules R143, R148). -/
theorem Deframer.idle_wf {cfg : Config} {d : Deframer} (h : d.Wf cfg) : d.idle.Wf cfg :=
  ⟨h.1, h.2.1, by simp, by simp⟩

theorem State.Inv.withRx {s : State} (h : s.Inv) {d : Deframer} (hd : d.Wf s.cfg) : (s.withRx d).Inv :=
  ⟨h.1, hd, h.2.2.1, h.2.2.2⟩

theorem State.Inv.emits {s : State} (h : s.Inv) (evs : List TraceEvent) : (s.emits evs).Inv := h

theorem State.Inv.emit {s : State} (h : s.Inv) (ev : TraceEvent) : (s.emit ev).Inv := h

/-- BC is at most MaxFrameLen in every state within the invariant (rule R157). -/
theorem State.Inv.lenTrip {s : State} (h : s.Inv) : lenTrip s = false := by
  have := h.2.1.2.2.1
  simp [Machine.lenTrip]; omega

/-- The guard keeps the invariant (rule R142). -/
theorem State.Inv.rxGuard {s : State} (h : s.Inv) (now : Time) : (rxGuard now s).Inv := by
  unfold Machine.rxGuard; split
  · exact State.Inv.withRx (h.emit _) (Deframer.idle_wf h.2.1)
  · exact h

/-- In a state within the invariant a guard that trips is a timeout, told once. -/
theorem rxGuard_trace {s : State} (h : s.Inv) (now : Time) :
    (rxGuard now s = s) ∨ rxGuard now s = (s.emit .dropTimeout).withRx s.rx.idle := by
  unfold rxGuard; split
  · right; simp [h.lenTrip, abandon]
  · left; rfl

/-- Adding 1 to a byte below 255 does not wrap. -/
theorem toNat_add_one {x : Byte} (h : x.toNat < 255) : (x + 1#8).toNat = x.toNat + 1 := by
  simp [BitVec.toNat_add]; omega

/-- The Idle rule keeps the invariant (rule R144). -/
theorem idleRule_inv {s : State} (h : s.Inv) (b : Byte) {now : Time} (hn : now < 2 ^ s.cfg.tw) :
    (idleRule b now s).Inv := by
  unfold idleRule; split
  · refine h.withRx ⟨h.2.1.1, ?_, by simp [Config.maxFrameLen], by simp⟩
    dsimp only; split
    · exact hn
    · positivity
  · exact h.emit _

/-- The Length rule keeps the invariant (rule R145). -/
theorem lengthRule_inv {s : State} (h : s.Inv) (hb : s.rx.bc = 1#8) (b : Byte) : (lengthRule b s).Inv := by
  obtain ⟨h1, h2, h3, h4⟩ := h.2.1
  refine h.withRx ⟨h1, h2, by simp [Config.maxFrameLen], fun _ => ?_⟩
  simp [hb] at h4
  simp [h4]

/-- The Id rule keeps the invariant (rule R146). -/
theorem idRule_inv {s : State} (h : s.Inv) (hb : s.rx.bc = 2#8) (b : Byte) : (idRule b s).Inv := by
  obtain ⟨h1, h2, h3, h4⟩ := h.2.1
  refine h.withRx ⟨h1, h2, by simp [Config.maxFrameLen], fun _ => ?_⟩
  simp [hb] at h4
  simp [h4]

/-- The Payload escape rule keeps the invariant (rule R147). -/
theorem escapeRule_inv {s : State} (h : s.Inv) (hb : 3 ≤ s.rx.bc.toNat) (he : s.rx.esc = false) :
    (escapeRule s).Inv := by
  obtain ⟨h1, h2, h3, h4⟩ := h.2.1
  have hm := maxFrameLen_le h.1
  obtain ⟨h5, h6, h7, h8⟩ := h4 (by omega)
  have hbc : (s.rx.bc + 1#8).toNat = s.rx.bc.toNat + 1 := toNat_add_one (by omega)
  rw [he] at h7
  simp only [Bool.toNat_false] at h7
  refine h.withRx ⟨h1, h2, ?_, fun _ => ⟨?_, ?_, ?_, ?_⟩⟩ <;>
    simp only [Deframer.escapePending_bc, Deframer.escapePending_pidx, Deframer.escapePending_esc, hbc,
      Bool.toNat_true, Config.maxFrameLen] at * <;> omega

/-- A store: room, or the frame is abandoned (rules R151 to R153). -/
theorem storeByte_spec {s : State} (h : s.Inv) (b : Byte) :
    (s.rx.pidx.toNat < s.cfg.mp + 1 ∧ storeByte b s = .next (s.withRx { s.rx with
        pbuf := s.rx.pbuf.set s.rx.pidx.toNat b, pidx := s.rx.pidx + 1#8, esc := false, bc := s.rx.bc + 1#8 })) ∨
    (¬ s.rx.pidx.toNat < s.cfg.mp + 1 ∧ storeByte b s = .next ((s.emit .dropOverflow).withRx s.rx.idle)) := by
  by_cases hr : s.rx.pidx.toNat < s.cfg.mp + 1
  · left
    have : s.rx.pidx.toNat < s.rx.pbuf.length := by rw [h.2.1.1]; exact hr
    exact ⟨hr, by simp [storeByte, hasRoom, hr, bufWrite, this]⟩
  · right; exact ⟨hr, by simp [storeByte, hasRoom, hr, abandon]⟩

theorem storeByte_inv {s : State} (h : s.Inv) (hb : 3 ≤ s.rx.bc.toNat) (b : Byte) :
    ∃ t, storeByte b s = .next t ∧ t.Inv := by
  obtain ⟨h1, h2, h3, h4⟩ := h.2.1
  have hm := maxFrameLen_le h.1
  have hmp := h.1.1
  rcases storeByte_spec h b with ⟨hr, he⟩ | ⟨hr, he⟩
  · refine ⟨_, he, h.withRx ⟨by simpa using h1, h2, ?_⟩⟩
    have hbc : (s.rx.bc + 1#8).toNat = s.rx.bc.toNat + 1 := toNat_add_one (by omega)
    have hpi : (s.rx.pidx + 1#8).toNat = s.rx.pidx.toNat + 1 := toNat_add_one (by omega)
    obtain ⟨h5, h6, h7, h8⟩ := h4 (by omega)
    have h9 : s.rx.esc.toNat ≤ 1 := Bool.toNat_le _
    simp only [hbc, hpi, Config.maxFrameLen, Bool.toNat_false] at *
    refine ⟨by omega, fun _ => ⟨?_, by omega, by omega, by simp⟩⟩
    cases hes : s.rx.esc with
    | false => omega
    | true => have := h8 hes; omega
  · exact ⟨_, he, State.Inv.withRx (h.emit _) (Deframer.idle_wf h.2.1)⟩

/-- PushEvict on RXQ in a state within the invariant. -/
theorem rxqPushEvict_spec {s : State} (h : s.Inv) {x : Packet} (hx : x.Ok s.cfg) :
    ∃ q, rxqPushEvict x s = .next ((s.withRxq q).emits (Spec.evictEvent s.cfg.nRx s.rxq)) ∧
      q = Spec.rxqPushed s.cfg.nRx x s.rxq ∧ q.Wf s.cfg.nRx (Packet.Ok s.cfg) ∧
      q.contents s.cfg.nRx = Spec.delivered s.cfg x s.rxq := by
  have hw := h.2.2.2
  have hn := h.1.2.2.2.2.2.1.1
  rcases fifoPushEvict_cases hw hn hx with ⟨hc, q', hq, hp⟩ | ⟨hc, q', hq, hp⟩
  · have hd := fifoDropOldest_spec hw (by omega)
    obtain ⟨q'', hq'', he, hwf, hco⟩ := fifoInsert_spec hd.1 (by simp [fifoDropOldest]; omega) hx
    rw [hq] at hq''; cases hq''
    refine ⟨q', by simp [rxqPushEvict, hp, Spec.evictEvent, hc], ?_, hwf, ?_⟩
    · rw [he]; simp [Spec.rxqPushed, hc, Spec.evictPushed, fifoDropOldest, nextIndex]; omega
    · rw [hco, hd.2]; simp [Spec.delivered, hc]
  · obtain ⟨q'', hq'', he, hwf, hco⟩ := fifoInsert_spec hw hc hx
    rw [hq] at hq''; cases hq''
    have hne : s.rxq.count ≠ s.cfg.nRx := by omega
    refine ⟨q', by simp [rxqPushEvict, hp, Spec.evictEvent, hne], ?_, hwf, ?_⟩
    · rw [he]; simp [Spec.rxqPushed, hne, Spec.pushed, nextIndex]
    · rw [hco]; simp [Spec.delivered, hne]

/-- The packet of a frame with a CRC byte is a Packet of rule R39. -/
theorem receivedPacket_ok {s : State} (h : s.Inv) (h1 : 1 ≤ s.rx.bc.toNat) (h2 : 1 ≤ s.rx.pidx.toNat) :
    (receivedPacket s).Ok s.cfg := by
  refine ⟨by simp [receivedPacket, Packet.Fits], ?_⟩
  have := (h.2.1.2.2.2 h1).2.1
  have hmp := h.1.1
  simp [receivedPacket, BitVec.toNat_sub]; omega

/-- The packet of a frame is DID with the stored payload, zero-filled (rule R150). -/
theorem receivedPacket_eq {s : State} (h : s.Inv) (h1 : 1 ≤ s.rx.bc.toNat) (h2 : 1 ≤ s.rx.pidx.toNat) :
    receivedPacket s = Spec.packetOf s.cfg s.rx.did (s.rx.pbuf.take (s.rx.pidx.toNat - 1)) := by
  have h3 := (h.2.1.2.2.2 h1).2.1
  have h4 := h.2.1.1
  have hmp := h.1.1
  have hl : (s.rx.pbuf.take (s.rx.pidx.toNat - 1)).length = s.rx.pidx.toNat - 1 := by
    rw [List.length_take]; omega
  unfold receivedPacket Spec.packetOf receivedPayload
  rw [hl, fitBytes_of_le (by rw [hl]; omega), hl]
  congr 1
  apply BitVec.eq_of_toNat_eq
  simp [BitVec.toNat_sub]; omega

/-- The end of a frame in a state within the invariant. -/
theorem endRule_spec {s : State} (h : s.Inv) (hb : 3 ≤ s.rx.bc.toNat) :
    (frameValid s = true ∧ ∃ q, q = Spec.rxqPushed s.cfg.nRx (receivedPacket s) s.rxq ∧
      q.Wf s.cfg.nRx (Packet.Ok s.cfg) ∧ q.contents s.cfg.nRx = Spec.delivered s.cfg (receivedPacket s) s.rxq ∧
      endRule s = .next (((s.withRx s.rx.idle).withRxq q).emits
        ([.frameOk] ++ Spec.evictEvent s.cfg.nRx s.rxq))) ∨
    (frameValid s = false ∧ endRule s = .next ((s.withRx s.rx.idle).emit
      (if s.rx.pidx.toNat < 1 then .dropNoCrc else if s.rx.bc.toNat + 1 ≠ s.rx.dlen.toNat then .dropLen else .dropCrc))) := by
  by_cases hp : s.rx.pidx.toNat < 1
  · right
    have : ¬ 1 ≤ s.rx.pidx.toNat := by omega
    refine ⟨by simp [frameValid, this], by simp [endRule, hp, closeFrame, State.withRx, State.emit, State.emits]⟩
  by_cases hl : s.rx.bc.toNat + 1 = s.rx.dlen.toNat
  · have h3 := (h.2.1.2.2.2 (by omega)).2.1
    have h4 := h.2.1.1
    have hlt : s.rx.pidx.toNat - 1 < s.rx.pbuf.length := by omega
    have hg := List.getElem?_eq_getElem hlt
    by_cases hc : crc8 (receivedPayload s) = s.rx.pbuf[s.rx.pidx.toNat - 1]
    · left
      have hok : (receivedPacket s).Ok s.cfg := receivedPacket_ok h (by omega) (by omega)
      obtain ⟨q, hq, he, hwf, hco⟩ := rxqPushEvict_spec (h.emit .frameOk) (x := receivedPacket s) hok
      refine ⟨by simp [frameValid, lengthMatches, hl, hg, hc]; omega, q, he, hwf, hco, ?_⟩
      have hdel : deliver (s.emit .frameOk) = .next (((s.emit .frameOk).withRxq q).emits
          (Spec.evictEvent s.cfg.nRx s.rxq)) := hq
      have hrd : bufRead (s.rx.pidx.toNat - 1) s.rx.pbuf = .next (s.rx.pbuf[s.rx.pidx.toNat - 1]) := by
        simp [bufRead, hg]
      simp only [endRule, hp, lengthMatches, hl, hrd, hc, hdel, bindNext_next, if_true, if_false, decide_true,
        Bool.not_true, Bool.false_eq_true]
      simp [closeFrame, State.withRx, State.withRxq, State.emit, State.emits]
    · right
      refine ⟨by simp [frameValid, hg, Ne.symm hc], ?_⟩
      simp [endRule, hp, lengthMatches, hl, bufRead, hg, hc, closeFrame, State.withRx, State.emit, State.emits]
  · right
    exact ⟨by simp [frameValid, lengthMatches, hl], by
      simp [endRule, hp, lengthMatches, hl, closeFrame, State.withRx, State.emit, State.emits]⟩

/-- The Payload end rule keeps the invariant (rule R148). -/
theorem endRule_inv {s : State} (h : s.Inv) (hb : 3 ≤ s.rx.bc.toNat) : ∃ t, endRule s = .next t ∧ t.Inv := by
  rcases endRule_spec h hb with ⟨-, q, -, hwf, -, he⟩ | ⟨-, he⟩
  · exact ⟨_, he, h.1, Deframer.idle_wf h.2.1, h.2.2.1, hwf⟩
  · exact ⟨_, he, h.1, Deframer.idle_wf h.2.1, h.2.2.1, h.2.2.2⟩

/-- The four states BC encodes (rule R141). -/
theorem bc_cases (x : Byte) : x = 0#8 ∨ x = 1#8 ∨ x = 2#8 ∨ 3 ≤ x.toNat := by
  revert x; decide

/-- A BC that is none of 0, 1 and 2 is a Payload state (rule R141). -/
theorem ge3 {x : Byte} (h0 : ¬ x = 0#8) (h1 : ¬ x = 1#8) (h2 : ¬ x = 2#8) : 3 ≤ x.toNat := by
  rcases bc_cases x with h | h | h | h <;> simp_all

/-- Classifying a byte answers next and keeps the invariant (rules R155, R156). -/
theorem classify_inv {s : State} (h : s.Inv) (b : Byte) {now : Time} (hn : now < 2 ^ s.cfg.tw) :
    ∃ t, classify b now s = .next t ∧ t.Inv := by
  unfold classify
  split
  · exact ⟨_, rfl, idleRule_inv h b hn⟩
  split
  · exact ⟨_, rfl, lengthRule_inv h ‹_› b⟩
  split
  · exact ⟨_, rfl, idRule_inv h ‹_› b⟩
  have hb := ge3 ‹_› ‹_› ‹_›
  split
  · exact storeByte_inv h hb b
  split
  · exact ⟨_, rfl, escapeRule_inv h hb (by simpa using ‹¬ s.rx.esc = true›)⟩
  split
  · exact endRule_inv h hb
  · exact storeByte_inv h hb b

/-- The guard writes no constant. -/
theorem rxGuard_cfg (now : Time) (s : State) : (rxGuard now s).cfg = s.cfg := by
  obtain ⟨_, _, _, h⟩ := received_rxGuard now s
  rw [h]; rfl

/-- A presented byte answers next and keeps the invariant (rule R155). -/
theorem rxStep_inv {s : State} (h : s.Inv) (b : Byte) {now : Time} (hn : now < 2 ^ s.cfg.tw) :
    ∃ t, rxStep b now s = .next t ∧ t.Inv :=
  classify_inv (h.rxGuard now) b (by rw [rxGuard_cfg]; exact hn)

/-! ## The guard and the validity check -/

/-- What a presented byte leaves alone: everything but the parse state, RXQ and the trace. -/
theorem Received.fields {s t : State} (h : Received s t) :
    t.cfg = s.cfg ∧ t.txq = s.txq ∧ t.chIn = s.chIn ∧ t.chOut = s.chOut ∧ t.clock = s.clock ∧ t.drawn = s.drawn ∧
      t.inputs = s.inputs ∧ t.out = s.out := by
  obtain ⟨rx, q, evs, rfl⟩ := h
  exact ⟨rfl, rfl, rfl, rfl, rfl, rfl, rfl, rfl⟩

/-- Where the guard does not trip, the byte is classified in the state as it is (rule R155). -/
theorem rxStep_of_no_trip {s : State} {t : Time} (b : Byte) (h : guardTrips t s = false) :
    rxStep b t s = classify b t s := by
  simp [rxStep, rxGuard, h]

/-- The guard is examined in the Payload state only (rule R142). -/
theorem guardTrips_of_header {s : State} {t : Time} (h : s.rx.bc.toNat < 3) : guardTrips t s = false := by
  simp [guardTrips, inPayload]; omega

/-- A frame within its length and time does not trip the guard (rule R142). -/
theorem guardTrips_of_guardHolds {s : State} {t : Time} (h : Spec.guardHolds s t) : guardTrips t s = false := by
  obtain ⟨h1, h2⟩ := h
  have h3 : lenTrip s = false := by simp [lenTrip]; omega
  have h4 : timedOut t s = false := by
    cases hc : s.cfg.clockPresent
    · simp only [timedOut, hc, Bool.false_and]
    · simp only [timedOut, hc, Bool.true_and]
      exact decide_eq_false (not_lt.2 (h2 hc))
  simp only [guardTrips, h3, h4, Bool.or_false, Bool.and_false]

/-- A Payload-state byte that finds the frame too long or timed out trips the guard (rule R142). -/
theorem guardTrips_of_late {s : State} {t : Time} (hb : 3 ≤ s.rx.bc.toNat)
    (h : s.rx.bc.toNat > s.cfg.maxFrameLen ∨ tooLate s.cfg s.rx.tstart t) : guardTrips t s = true := by
  have h3 : inPayload s = true := decide_eq_true hb
  rcases h with h | ⟨h, h'⟩
  · have h4 : lenTrip s = true := decide_eq_true h
    simp only [guardTrips, h3, h4, Bool.true_or, Bool.and_true]
  · have h4 : timedOut t s = true := by
      simp only [timedOut, h, Bool.true_and]; exact decide_eq_true h'
    simp only [guardTrips, h3, h4, Bool.or_true, Bool.and_true]

/-- Frame validity, in the rules' formulas (rule R149). -/
theorem frameValid_iff (s : State) :
    frameValid s = true ↔
      (1 ≤ s.rx.pidx.toNat ∧ s.rx.bc.toNat + 1 = s.rx.dlen.toNat ∧
        s.rx.pbuf[s.rx.pidx.toNat - 1]? = some (Spec.crcOf (s.rx.pbuf.take (s.rx.pidx.toNat - 1)))) := by
  simp [frameValid, lengthMatches, receivedPayload, crcOf_eq_crc8, and_assoc]

/-! ## Bytes presented one after another -/

/-- Presenting two lists of bytes is presenting the second after the first (rule R98). -/
theorem presentBytes_append (xs ys : List (Byte × Time)) (s : State) :
    presentBytes (xs ++ ys) s = bindNext (presentBytes xs s) (presentBytes ys) := by
  induction xs generalizing s with
  | nil => rfl
  | cons p xs ih => simp only [List.cons_append, presentBytes, bindNext_assoc, ih]

/-- RX_STEP is the byte, and the quiet result ports (rule R155). -/
theorem execRxStep_next {b : Byte} {now : Time} {s t : State} (h : exec (.rxStep b now) s = .next t) :
    ∃ u, Received s u ∧ rxStep b now s = .next u ∧ t = u.done := by
  obtain ⟨u, hu, h⟩ := bindNext_eq_next.1 h
  cases h; exact ⟨u, received_rxStep hu, hu, rfl⟩

/-- One stored byte adds one to BC and PIDX and one byte to the stored bytes (rules R151, R152). -/
theorem stored_byte {s : State} (h : s.Inv) (hb : 3 ≤ s.rx.bc.toNat) (hr : s.rx.pidx.toNat < s.cfg.mp + 1) (y : Byte) :
    (s.rx.bc + 1#8).toNat = s.rx.bc.toNat + 1 ∧ (s.rx.pidx + 1#8).toNat = s.rx.pidx.toNat + 1 ∧
      (s.rx.pbuf.set s.rx.pidx.toNat y).take (s.rx.pidx.toNat + 1) = s.rx.pbuf.take s.rx.pidx.toNat ++ [y] := by
  have hm := maxFrameLen_le h.1
  have h1 := h.2.1.1
  have h2 := h.2.1.2.2.1
  have h3 := h.2.1.2.2.2 (by omega)
  have h9 : s.rx.esc.toNat ≤ 1 := Bool.toNat_le _
  have hmp := h.1.1
  refine ⟨toNat_add_one (by omega), toNat_add_one (by omega), ?_⟩
  rw [List.take_add_one, List.take_set_of_le (by omega)]
  simp [h1, hr]

end Sys2Proof.Machine
end

