-- ==== Sys2Proof/Laws/Engine.lean ====
section
/-! SUPPORT. SERVICE: what its read loop takes from the channel and the clock, and what its send step writes. -/

namespace Sys2Proof.Machine

/-! ## The read loop -/

/-- Taking a byte and its clock reading keeps the invariant (rules R215, R217). -/
theorem State.Inv.sampleNow {s : State} (h : s.Inv) (rest : List Byte) : (sampleNow (s.withChIn rest)).2.Inv := by
  obtain ⟨-, a, k, e⟩ := sampleNow_spec (s.withChIn rest)
  rw [e]; exact h

/-- The read loop answers next and keeps the invariant (rule R215). -/
theorem readLoop_inv (n : Nat) {s : State} (h : s.Inv) : ∃ t, readLoop n s = .next t ∧ t.Inv := by
  induction n generalizing s with
  | zero => exact ⟨s, rfl, h⟩
  | succ n ih =>
    unfold readLoop; split
    · exact ⟨s, rfl, h⟩
    · rename_i b rest hc
      have hn : (Machine.sampleNow (s.withChIn rest)).1 < 2 ^ (Machine.sampleNow (s.withChIn rest)).2.cfg.tw := by
        obtain ⟨h1, a, k, e⟩ := sampleNow_spec (s.withChIn rest)
        rw [e]; exact h1
      obtain ⟨t, e, ht⟩ := rxStep_inv (h.sampleNow rest) b hn
      simp only [e, bindNext_next]
      exact ih ht

/-- What the read loop leaves alone (rule R215). -/
theorem readLoop_frame (n : Nat) {s t : State} (h : readLoop n s = .next t) :
    t.cfg = s.cfg ∧ t.txq = s.txq ∧ t.chOut = s.chOut ∧ t.inputs = s.inputs ∧ t.out = s.out := by
  induction n generalizing s with
  | zero => cases h; simp
  | succ n ih =>
    unfold readLoop at h
    split at h
    · cases h; simp
    · rename_i b rest hc
      obtain ⟨u, hu, h⟩ := bindNext_eq_next.1 h
      obtain ⟨f1, f2, -, f4, -, -, f7, f8⟩ := Received.fields (received_rxStep hu)
      obtain ⟨-, a, k, e⟩ := sampleNow_spec (s.withChIn rest)
      rw [e] at f1 f2 f4 f7 f8
      simpa [f1, f2, f4, f7, f8] using ih h

/-- What the read loop takes: as many bytes as wait, up to its budget, and a clock reading for each (rules R215, R217). -/
theorem readLoop_taken (n : Nat) {s t : State} (h : readLoop n s = .next t) :
    t.chIn = s.chIn.drop (min n s.chIn.length) ∧
      t.clock = (if s.cfg.clockPresent then s.clock.drop (min n s.chIn.length) else s.clock) ∧
      t.drawn = (if s.cfg.clockPresent then s.drawn + (min n s.chIn.length - s.clock.length) else s.drawn) := by
  induction n generalizing s with
  | zero => cases h; simp
  | succ n ih =>
    unfold readLoop at h
    split at h
    · rename_i hc; cases h; simp [hc]
    · rename_i b rest hc
      obtain ⟨v, hv, h⟩ := bindNext_eq_next.1 h
      obtain ⟨f1, -, f3, -, f5, f6, -, -⟩ := Received.fields (received_rxStep hv)
      obtain ⟨a1, a2, a3⟩ := ih h
      obtain ⟨-, cl, dr, hs⟩ := sampleNow_spec (s.withChIn rest)
      have hvc : v.chIn = rest := by rw [f3, hs]; rfl
      have hcc : v.cfg = s.cfg := by rw [f1, hs]; rfl
      rw [hcc, hvc] at a2 a3
      rw [hvc] at a1
      rw [hc, a1, a2, a3]
      simp only [List.length_cons]
      rw [show min (n + 1) (rest.length + 1) = min n rest.length + 1 by omega]
      refine ⟨by simp, ?_⟩
      cases hp : s.cfg.clockPresent
      · rw [sampleNow_absent (s := s.withChIn rest) hp] at f5 f6
        simpa using ⟨f5, f6⟩
      · cases hl : s.clock with
        | nil => rw [sampleNow_nil (s := s.withChIn rest) hp hl] at f5 f6; simp at f5 f6; simp [f5, f6]; omega
        | cons t ts => rw [sampleNow_cons (s := s.withChIn rest) hp hl] at f5 f6; simp at f5 f6; simp [f5, f6]

/-! ## The send step -/

/-- With TXQ empty nothing is sent (rule R216). -/
theorem sendStep_empty {s : State} (h : s.txq.count = 0) : sendStep s = .next s := by simp [sendStep, h]

/-- Else the oldest frame leaves TXQ and is one write (rule R216). -/
theorem sendStep_some {s : State} {f : Frame} (h : s.txq.count ≠ 0) (hf : s.txq.slots[s.txq.front]? = some f) :
    sendStep s = .next ((s.withTxq (Spec.popped s.cfg.nTx s.txq)).withChOut (s.chOut ++ [f.value])) := by
  unfold sendStep; rw [if_pos (by omega)]
  simp only [txqTake, fifoPop_next (show 0 < s.txq.count by omega) hf, bindNext_next]
  simp [State.emits, chWrite, State.withTxq, State.withChOut]; rfl

/-- The send step answers next and keeps the invariant (rule R216). -/
theorem sendStep_inv {s : State} (h : s.Inv) : ∃ t, sendStep s = .next t ∧ t.Inv := by
  by_cases hc : s.txq.count = 0
  · exact ⟨s, sendStep_empty hc, h⟩
  · obtain ⟨f, hf, -⟩ := h.2.2.1.front_slot
    exact ⟨_, sendStep_some hc hf, h.1, h.2.1, (fifoDropOldest_spec h.2.2.1 (by omega)).1, h.2.2.2⟩

/-- What the send step changes: TXQ, the channel output and the trace (rule R216). -/
theorem sendStep_next {s t : State} (h : sendStep s = .next t) :
    ∃ q writes evs, t = ((s.withTxq q).withChOut (s.chOut ++ writes)).emits evs := by
  unfold sendStep at h; split at h
  · obtain ⟨⟨f, u⟩, hu, h⟩ := bindNext_eq_next.1 h
    obtain ⟨q, evs, rfl⟩ := txqTake_next hu
    cases h; exact ⟨q, [f.value], evs, rfl⟩
  · cases h; exact ⟨s.txq, [], [], by simp [State.withTxq, State.withChOut, State.emits]⟩

/-- SERVICE is its read loop, then its send step, then the quiet result ports (rule R214). -/
theorem execService_next {s t : State} (h : exec .service s = .next t) :
    ∃ u v, readLoop s.cfg.bpt s = .next u ∧ sendStep u = .next v ∧ t = v.done := by
  obtain ⟨u, hu, h⟩ := bindNext_eq_next.1 h
  obtain ⟨v, hv, h⟩ := bindNext_eq_next.1 h
  cases h; exact ⟨u, v, hu, hv, rfl⟩

end Sys2Proof.Machine
end

