-- ==== Sys2Proof/Laws/Agents.lean ====
section
/-! SUPPORT. No FIFO or deframer operation reads what the agents hold, the result ports or the trace: each commutes with
replacing them. And no instruction reads the result ports or the trace (`exec_retold`). -/

namespace Sys2Proof.Machine

/-- The same block beside other agents: another channel input and clock, other result ports, and an earlier trace. -/
def State.beside (s : State) (chIn : List Byte) (clock : List Time) (drawn : Nat) (out : Results)
    (before : List TraceEvent) : State :=
  { s with chIn := chIn, clock := clock, drawn := drawn, out := out, trace := before ++ s.trace }

/-- Apply a function to the next state of an outcome. -/
def mapNext {α β : Type} (f : α → β) (o : Host.Outcome α Fault Refusal) : Host.Outcome β Fault Refusal :=
  bindNext o fun a => .next (f a)

@[simp] theorem mapNext_next {α β : Type} (f : α → β) (a : α) : mapNext f (.next a) = .next (f a) := rfl

variable (s : State) (c : List Byte) (k : List Time) (d : Nat) (o : Results) (p : List TraceEvent)

theorem emits_beside (evs : List TraceEvent) : (s.beside c k d o p).emits evs = (s.emits evs).beside c k d o p := by
  simp [State.beside, State.emits]

theorem emit_beside (ev : TraceEvent) : (s.beside c k d o p).emit ev = (s.emit ev).beside c k d o p :=
  emits_beside s c k d o p [ev]

theorem rxGuard_beside (now : Time) : rxGuard now (s.beside c k d o p) = (rxGuard now s).beside c k d o p := by
  have h1 : guardTrips now (s.beside c k d o p) = guardTrips now s := rfl
  have h2 : lenTrip (s.beside c k d o p) = lenTrip s := rfl
  unfold rxGuard; rw [h1, h2]; split
  · rw [emit_beside]; rfl
  · rfl

theorem storeByte_beside (b : Byte) :
    storeByte b (s.beside c k d o p) = mapNext (·.beside c k d o p) (storeByte b s) := by
  have h1 : hasRoom (s.beside c k d o p) = hasRoom s := rfl
  have h2 : (s.beside c k d o p).rx = s.rx := rfl
  unfold storeByte; rw [h1, h2]; split
  · cases bufWrite s.rx.pidx.toNat b s.rx.pbuf <;> rfl
  · rw [emit_beside]; rfl

theorem rxqPushEvict_beside (x : Packet) :
    rxqPushEvict x (s.beside c k d o p) = mapNext (·.beside c k d o p) (rxqPushEvict x s) := by
  have h1 : (s.beside c k d o p).rxq = s.rxq := rfl
  have h2 : (s.beside c k d o p).cfg = s.cfg := rfl
  unfold rxqPushEvict; rw [h1, h2]
  cases fifoPushEvict s.cfg.nRx x s.rxq with
  | next r => exact congrArg Host.Outcome.next (emits_beside (s.withRxq r.1) c k d o p r.2)
  | fault f => rfl
  | refused f => rfl

theorem txqPushDrop_beside (x : Frame) :
    txqPushDrop x (s.beside c k d o p) = mapNext (·.beside c k d o p) (txqPushDrop x s) := by
  have h1 : (s.beside c k d o p).txq = s.txq := rfl
  have h2 : (s.beside c k d o p).cfg = s.cfg := rfl
  unfold txqPushDrop; rw [h1, h2]
  cases fifoPushDrop s.cfg.nTx x s.txq with
  | next r => exact congrArg Host.Outcome.next (emits_beside (s.withTxq r.1) c k d o p r.2)
  | fault f => rfl
  | refused f => rfl

theorem txqTake_beside :
    txqTake (s.beside c k d o p) = mapNext (fun r => (r.1, r.2.beside c k d o p)) (txqTake s) := by
  have h1 : (s.beside c k d o p).txq = s.txq := rfl
  have h2 : (s.beside c k d o p).cfg = s.cfg := rfl
  unfold txqTake; rw [h1, h2]
  cases fifoPop s.cfg.nTx (defaultFrame s.cfg) s.txq with
  | next r =>
    exact congrArg (fun t => Host.Outcome.next (r.item, t)) (emits_beside (s.withTxq r.fifo) c k d o p r.events)
  | fault f => rfl
  | refused f => rfl

theorem rxqTake_beside :
    rxqTake (s.beside c k d o p) = mapNext (fun r => (r.1, r.2.beside c k d o p)) (rxqTake s) := by
  have h1 : (s.beside c k d o p).rxq = s.rxq := rfl
  have h2 : (s.beside c k d o p).cfg = s.cfg := rfl
  unfold rxqTake; rw [h1, h2]
  cases fifoPop s.cfg.nRx (defaultPacket s.cfg) s.rxq with
  | next r =>
    exact congrArg (fun t => Host.Outcome.next (r.item, t)) (emits_beside (s.withRxq r.fifo) c k d o p r.events)
  | fault f => rfl
  | refused f => rfl

theorem closeFrame_emit_beside (ev : TraceEvent) :
    closeFrame ((s.beside c k d o p).emit ev) = (closeFrame (s.emit ev)).beside c k d o p := by
  rw [emit_beside]; rfl

theorem endRule_beside : endRule (s.beside c k d o p) = mapNext (·.beside c k d o p) (endRule s) := by
  have h1 : lengthMatches (s.beside c k d o p) = lengthMatches s := rfl
  have h2 : (s.beside c k d o p).rx = s.rx := rfl
  have h3 : receivedPayload (s.beside c k d o p) = receivedPayload s := rfl
  unfold endRule
  rw [h1, h2, h3, closeFrame_emit_beside, closeFrame_emit_beside, closeFrame_emit_beside, emit_beside]
  split
  · rfl
  split
  · rfl
  cases bufRead (s.rx.pidx.toNat - 1) s.rx.pbuf with
  | next x =>
    simp only [bindNext_next]
    split
    · have h4 : deliver ((s.emit .frameOk).beside c k d o p) = _ := rxqPushEvict_beside _ c k d o p _
      rw [h4]
      change bindNext (mapNext _ (deliver _)) _ = _
      cases deliver (s.emit .frameOk) <;> rfl
    · rfl
  | fault f => rfl
  | refused f => rfl

/-- A presented byte does the same beside other agents (rules R31, R155). -/
theorem rxStep_beside (b : Byte) (now : Time) :
    rxStep b now (s.beside c k d o p) = mapNext (·.beside c k d o p) (rxStep b now s) := by
  unfold rxStep; rw [rxGuard_beside]
  generalize rxGuard now s = s
  have h2 : (s.beside c k d o p).rx = s.rx := rfl
  have h3 : (s.beside c k d o p).cfg = s.cfg := rfl
  unfold classify
  rw [h2, h3]
  split
  · unfold idleRule; rw [h3]; split
    · rfl
    · rw [emit_beside]; rfl
  split
  · rfl
  split
  · rfl
  split
  · exact storeByte_beside ..
  split
  · rfl
  split
  · exact endRule_beside ..
  · exact storeByte_beside ..

/-! ## The result ports and the trace -/

/-- The same state with an earlier trace before its own. -/
def State.after (s : State) (before : List TraceEvent) : State := { s with trace := before ++ s.trace }

/-- The same state with other result ports and an earlier trace. -/
def State.retold (s : State) (out : Results) (before : List TraceEvent) : State :=
  { s with out := out, trace := before ++ s.trace }

theorem retold_emits (evs : List TraceEvent) : (s.retold o p).emits evs = (s.emits evs).retold o p :=
  emits_beside s s.chIn s.clock s.drawn o p evs

theorem retold_emit (ev : TraceEvent) : (s.retold o p).emit ev = (s.emit ev).retold o p := retold_emits s o p [ev]

/-- Driving the result ports forgets what they held. -/
theorem retold_respond (r : Results) : (s.retold o p).respond r = (s.respond r).after p := rfl

theorem txqPushDrop_retold (x : Frame) :
    txqPushDrop x (s.retold o p) = mapNext (·.retold o p) (txqPushDrop x s) := by
  have h := txqPushDrop_beside s s.chIn s.clock s.drawn o p x
  rw [show s.beside s.chIn s.clock s.drawn o p = s.retold o p from rfl] at h
  rw [h]; unfold txqPushDrop
  cases fifoPushDrop s.cfg.nTx x s.txq <;> rfl

theorem rxqPushEvict_retold (x : Packet) :
    rxqPushEvict x (s.retold o p) = mapNext (·.retold o p) (rxqPushEvict x s) := by
  have h := rxqPushEvict_beside s s.chIn s.clock s.drawn o p x
  rw [show s.beside s.chIn s.clock s.drawn o p = s.retold o p from rfl] at h
  rw [h]; unfold rxqPushEvict
  cases fifoPushEvict s.cfg.nRx x s.rxq <;> rfl

theorem txqTake_retold : txqTake (s.retold o p) = mapNext (fun r => (r.1, r.2.retold o p)) (txqTake s) := by
  have h := txqTake_beside s s.chIn s.clock s.drawn o p
  rw [show s.beside s.chIn s.clock s.drawn o p = s.retold o p from rfl] at h
  rw [h]; unfold txqTake
  cases fifoPop s.cfg.nTx (defaultFrame s.cfg) s.txq <;> rfl

theorem rxqTake_retold : rxqTake (s.retold o p) = mapNext (fun r => (r.1, r.2.retold o p)) (rxqTake s) := by
  have h := rxqTake_beside s s.chIn s.clock s.drawn o p
  rw [show s.beside s.chIn s.clock s.drawn o p = s.retold o p from rfl] at h
  rw [h]; unfold rxqTake
  cases fifoPop s.cfg.nRx (defaultPacket s.cfg) s.rxq <;> rfl

theorem rxStep_retold (b : Byte) (now : Time) :
    rxStep b now (s.retold o p) = mapNext (·.retold o p) (rxStep b now s) := by
  have h := rxStep_beside s s.chIn s.clock s.drawn o p b now
  rw [show s.beside s.chIn s.clock s.drawn o p = s.retold o p from rfl] at h
  rw [h]
  cases e : rxStep b now s with
  | next t =>
    obtain ⟨-, -, f3, -, f5, f6, -, -⟩ := Received.fields (received_rxStep e)
    simp only [mapNext_next, Host.Outcome.next.injEq]
    rw [← f3, ← f5, ← f6]; rfl
  | fault f => rfl
  | refused f => rfl

theorem sampleNow_retold : sampleNow (s.retold o p) = ((sampleNow s).1, (sampleNow s).2.retold o p) := by
  have h1 : (s.retold o p).cfg = s.cfg := rfl
  have h2 : (s.retold o p).clock = s.clock := rfl
  unfold sampleNow clockNow; rw [h1, h2]
  split
  · split <;> rfl
  · rfl

theorem readLoop_retold (n : Nat) : readLoop n (s.retold o p) = mapNext (·.retold o p) (readLoop n s) := by
  induction n generalizing s with
  | zero => rfl
  | succ n ih =>
    have h1 : (s.retold o p).chIn = s.chIn := rfl
    unfold readLoop; rw [h1]
    split
    · rfl
    · rename_i b rest _
      have h2 : (s.retold o p).withChIn rest = (s.withChIn rest).retold o p := rfl
      simp only [h2, sampleNow_retold, rxStep_retold]
      cases rxStep b (sampleNow (s.withChIn rest)).1 (sampleNow (s.withChIn rest)).2 with
      | next u => exact ih u
      | fault f => rfl
      | refused f => rfl

theorem sendStep_retold : sendStep (s.retold o p) = mapNext (·.retold o p) (sendStep s) := by
  have h1 : (s.retold o p).txq = s.txq := rfl
  unfold sendStep; rw [h1, txqTake_retold]
  split
  · cases txqTake s <;> rfl
  · rfl

/-- An instruction does the same, and answers the same results, whatever was answered and traced before it (rules R48,
R232). -/
theorem exec_retold (i : Instr) : exec i (s.retold o p) = mapNext (·.after p) (exec i s) := by
  have hc : (s.retold o p).cfg = s.cfg := rfl
  have ht : (s.retold o p).txq = s.txq := rfl
  have hr : (s.retold o p).rxq = s.rxq := rfl
  have hill : illegalCommand (s.retold o p) = (illegalCommand s).after p := by
    unfold illegalCommand; rw [retold_emit]; rfl
  cases i with
  | nop | available | crc8 _ _ | crc8Step _ _ | txqCount | txqClear | rxqCount | rxqClear => rfl
  | send id plen payload =>
    simp only [exec, execSend, hc]; split
    · rw [retold_emit]; rfl
    · rw [txqPushDrop_retold]; cases txqPushDrop _ s <;> rfl
  | read => simp only [exec, execRead, rxqTakeResult, hc, rxqTake_retold]; cases rxqTake s <;> rfl
  | service =>
    simp only [exec, execService, hc, readLoop_retold]
    cases readLoop s.cfg.bpt s with
    | next u => simp only [mapNext_next, bindNext_next, sendStep_retold]; cases sendStep u <;> rfl
    | fault f => rfl
    | refused f => rfl
  | encode id plen payload =>
    simp only [exec, execEncode, hc]; split
    · rw [retold_emit]; rfl
    · rfl
  | rxStep b now => simp only [exec, execRxStep, rxStep_retold]; cases rxStep b now s <;> rfl
  | txqPush x =>
    simp only [exec, execTxqPush, hc, hill]; split
    · rfl
    · rw [txqPushDrop_retold]; cases txqPushDrop x s <;> rfl
  | txqPop => simp only [exec, execTxqPop, hc, txqTake_retold]; cases txqTake s <;> rfl
  | txqPeek => simp only [exec, execTxqPeek, hc, ht]; cases fifoPeek (defaultFrame s.cfg) s.txq <;> rfl
  | rxqPush x =>
    simp only [exec, execRxqPush, hc, hill]; split
    · rfl
    · rw [rxqPushEvict_retold]; cases rxqPushEvict x s <;> rfl
  | rxqPop => simp only [exec, execRxqPop, rxqTakeResult, hc, rxqTake_retold]; cases rxqTake s <;> rfl
  | rxqPeek => simp only [exec, execRxqPeek, hc, hr]; cases fifoPeek (defaultPacket s.cfg) s.rxq <;> rfl

end Sys2Proof.Machine
end

