-- ==== Sys2Proof/Laws/PerInstr.lean ====
section
/-! SUPPORT. A statement about every instruction, one lemma for each constructor. -/

namespace Sys2Proof.Laws.EncodedOpcode

/-- The command of an instruction is on a port that accepts its unit, and its opcode byte is read back as the
instruction's operation (rules R91, R92). -/
def Statement (i : Instr) : Prop :=
  (encode i).port.accepts (unitOf (encode i).op) = true ∧
    decodeOpcode (encode i).port (encode i).op = .ok i.opcode

/-- It depends on the operation only. -/
theorem of_opcode (i : Instr) : Statement i := by
  have h : ∀ k : Opcode, (portOf k).accepts (unitOf (opByte k)) = true ∧ decodeOpcode (portOf k) (opByte k) = .ok k := by
    intro k; cases k <;> exact ⟨by decide, by decide⟩
  exact h i.opcode

theorem nop : Statement .nop := of_opcode _
theorem send (id plen : Byte) (payload : List Byte) : Statement (.send id plen payload) := of_opcode _
theorem available : Statement .available := of_opcode _
theorem read : Statement .read := of_opcode _
theorem service : Statement .service := of_opcode _
theorem crc8 (slen : Byte) (sbytes : List Byte) : Statement (.crc8 slen sbytes) := of_opcode _
theorem crc8Step (acc data : Byte) : Statement (.crc8Step acc data) := of_opcode _
theorem encode (id plen : Byte) (payload : List Byte) : Statement (.encode id plen payload) := of_opcode _
theorem rxStep (data : Byte) (now : Time) : Statement (.rxStep data now) := of_opcode _
theorem txqCount : Statement .txqCount := of_opcode _
theorem txqPush (item : Frame) : Statement (.txqPush item) := of_opcode _
theorem txqPop : Statement .txqPop := of_opcode _
theorem txqPeek : Statement .txqPeek := of_opcode _
theorem txqClear : Statement .txqClear := of_opcode _
theorem rxqCount : Statement .rxqCount := of_opcode _
theorem rxqPush (item : Packet) : Statement (.rxqPush item) := of_opcode _
theorem rxqPop : Statement .rxqPop := of_opcode _
theorem rxqPeek : Statement .rxqPeek := of_opcode _
theorem rxqClear : Statement .rxqClear := of_opcode _

end Sys2Proof.Laws.EncodedOpcode
end

