-- ==== Sys2Proof/Laws/Step.lean ====
section
/-! SUPPORT. One step: which input it takes, and what that input does. -/

namespace Sys2Proof.Machine

/-- A legal machine steps by taking its next input (rule R9). -/
theorem step_of_legal {s : State} (h : s.cfg.Legal) : step s = runNextInput s := if_pos h

/-- An illegal configuration is refused (rule R9). -/
theorem step_of_illegal {s : State} (h : ¬ s.cfg.Legal) : step s = .refused .illegalConfiguration := if_neg h

/-- A step that answers next is that of a legal machine. -/
theorem legal_of_step_eq_next {s t : State} (h : step s = .next t) : s.cfg.Legal := by
  by_contra hl; rw [step_of_illegal hl] at h; cases h

/-- The next input is taken from the list and run. -/
theorem runNextInput_cons {s : State} {inp : Input} {rest : List Input} (h : s.inputs = inp :: rest) :
    runNextInput s = runInput inp (s.withInputs rest) := by
  simp [runNextInput, h]

/-- With no input the block is idle (rule R140). -/
theorem runNextInput_nil {s : State} (h : s.inputs = []) : runNextInput s = .next s := by
  simp [runNextInput, h]

/-- A command that decodes runs its instruction. -/
theorem runCommand_ok {s : State} {c : Command} {i : Instr} (h : decode s.cfg c = .ok i) :
    runCommand c s = exec i s := by
  simp [runCommand, h]

/-- A command that does not decode is illegal (rule R233). -/
theorem runCommand_error {s : State} {c : Command} {r : Reject} (h : decode s.cfg c = .error r) :
    runCommand c s = .next (illegalCommand s) := by
  simp [runCommand, h]

/-- What decodes is the opcode's operation with the operands it names. -/
theorem decode_eq_ok {cfg : Config} {c : Command} {i : Instr} (h : decode cfg c = .ok i) :
    ∃ k, decodeOpcode c.port c.op = .ok k ∧ i = withOperands cfg c.operands k := by
  unfold decode at h; split at h
  · cases h; exact ⟨_, ‹_›, rfl⟩
  · cases h

@[simp] theorem withOperands_opcode (cfg : Config) (v : OperandPorts) (k : Opcode) :
    (withOperands cfg v k).opcode = k := by
  cases k <;> rfl

/-- Operands read at their ports' widths are well formed (rule R89). -/
theorem withOperands_wellFormed (cfg : Config) (v : OperandPorts) (k : Opcode) :
    (withOperands cfg v k).wellFormed cfg = true := by
  cases k <;> simp [withOperands, Instr.wellFormed, portTime, portFrame, portPacket, Frame.Fits, Packet.Fits,
    Nat.mod_lt]

end Sys2Proof.Machine
end

