-- ==== Sys2Proof/Tests/Slice0.lean ====
section
/-! SUPPORT. Tests. Expected values are the spec's own: opcode words from 30_encoding.md rule R92, results from the
vectors of 95_test_vectors.md (sections named beside each). Then, for each statement with hypotheses, a state that meets
them. -/

namespace Sys2Proof.Tests

set_option Elab.async false

open Sys2Proof Sys2Proof.Machine Sys2Proof.Spec

/-! ## Helpers -/

/-- The example instance of rule R12. -/
abbrev cfg : Config := Config.sample

/-- One instruction from a state, and a part of the state after it. -/
def got {α : Type} (i : Instr) (s : State) (f : State → α) : Option α :=
  match exec i s with
  | .next t => some (f t)
  | _ => none

/-- One step from a state, and a part of the state after it. -/
def stepped {α : Type} (s : State) (f : State → α) : Option α :=
  match step s with
  | .next t => some (f t)
  | _ => none

/-- Bytes on a port of n bytes. -/
def pad (n : Nat) (bytes : List Byte) : List Byte := bytes ++ List.replicate (n - bytes.length) 0x00#8

/-- "hi" on the payload port. -/
def hi : List Byte := pad 8 [0x68, 0x69]

/-- The frame of {07, "hi"} (section 1). -/
def frameHi : Frame := ⟨7, pad 22 [0x02, 0x07, 0x07, 0x68, 0x69, 0x45, 0x03]⟩

/-- Frames A and B of section 5.1: those of {01, 10} and {02, 20} (section 3.1). -/
def frameA : Frame := ⟨6, pad 22 [0x02, 0x06, 0x01, 0x10, 0x70, 0x03]⟩
def frameB : Frame := ⟨6, pad 22 [0x02, 0x06, 0x02, 0x20, 0xE0, 0x03]⟩

/-- Packets A, B and C of section 5.2. -/
def packetA : Packet := ⟨1, 1, pad 8 [0x10]⟩
def packetB : Packet := ⟨2, 1, pad 8 [0x20]⟩
def packetC : Packet := ⟨3, 1, pad 8 [0x30]⟩

/-- TXQ holding A and B, after step 2 of section 5.1. -/
def txFull : State := State.reset.withTxq ⟨[frameA, frameB, defaultFrame cfg], 0, 2, 2⟩

/-- RXQ holding A and B, after step 2 of section 5.2. -/
def rxFull : State := State.reset.withRxq ⟨[packetA, packetB, defaultPacket cfg], 0, 2, 2⟩

/-- The deframer with `stored` in its buffer, begun at time 0. -/
def parsing (bc dlen did : Byte) (esc : Bool) (stored : List Byte) : State :=
  State.reset.withRx ⟨bc, dlen, did, esc, pad 9 stored, BitVec.ofNat 8 stored.length, 0⟩

/-- Distinct values on every operand port. -/
def ports : OperandPorts where
  id := 0x11
  plen := 0x02
  payload := hi
  data := 0x33
  now := 44
  acc := 0x55
  slen := 0x66
  sbytes := pad 255 [0x77]
  itemFrame := frameA
  itemPacket := packetA

/-! ## WellFormed refuses an operand that no port carries -/

theorem test_illformed_send : Instr.wellFormed cfg (.send 0x07 0x02 [0x68, 0x69]) = false := by decide
theorem test_illformed_crc8 : Instr.wellFormed cfg (.crc8 0x02 [0x68, 0x69]) = false := by decide
theorem test_illformed_encode : Instr.wellFormed cfg (.encode 0x07 0x09 (pad 9 [])) = false := by decide
theorem test_illformed_rxStep : Instr.wellFormed cfg (.rxStep 0x02 (2 ^ 32)) = false := by decide
theorem test_illformed_txqPush : Instr.wellFormed cfg (.txqPush ⟨6, [0x02, 0x06]⟩) = false := by decide
theorem test_illformed_rxqPush : Instr.wellFormed cfg (.rxqPush ⟨1, 1, [0x10]⟩) = false := by decide

/-! ## Decoding: each row of rule R92, written out as unit and fn -/

theorem test_decode_nop : decode cfg ⟨.host, 0b00000000, ports⟩ = .ok .nop := by decide
theorem test_decode_send : decode cfg ⟨.host, 0b00000001, ports⟩ = .ok (.send 0x11 0x02 hi) := by decide
theorem test_decode_available : decode cfg ⟨.host, 0b00000010, ports⟩ = .ok .available := by decide
theorem test_decode_read : decode cfg ⟨.host, 0b00000011, ports⟩ = .ok .read := by decide
theorem test_decode_service : decode cfg ⟨.host, 0b00000100, ports⟩ = .ok .service := by decide
theorem test_decode_crc8 : decode cfg ⟨.test, 0b00010000, ports⟩ = .ok (.crc8 0x66 ports.sbytes) := by
  decide +kernel
theorem test_decode_crc8Step : decode cfg ⟨.test, 0b00010001, ports⟩ = .ok (.crc8Step 0x55 0x33) := by decide
theorem test_decode_encode : decode cfg ⟨.test, 0b00100000, ports⟩ = .ok (.encode 0x11 0x02 hi) := by decide
theorem test_decode_rxStep : decode cfg ⟨.test, 0b00110000, ports⟩ = .ok (.rxStep 0x33 44) := by decide
theorem test_decode_txqCount : decode cfg ⟨.test, 0b01000000, ports⟩ = .ok .txqCount := by decide
theorem test_decode_txqPush : decode cfg ⟨.test, 0b01000001, ports⟩ = .ok (.txqPush frameA) := by decide
theorem test_decode_txqPop : decode cfg ⟨.test, 0b01000010, ports⟩ = .ok .txqPop := by decide
theorem test_decode_txqPeek : decode cfg ⟨.test, 0b01000011, ports⟩ = .ok .txqPeek := by decide
theorem test_decode_txqClear : decode cfg ⟨.test, 0b01000100, ports⟩ = .ok .txqClear := by decide
theorem test_decode_rxqCount : decode cfg ⟨.test, 0b01010000, ports⟩ = .ok .rxqCount := by decide
theorem test_decode_rxqPush : decode cfg ⟨.test, 0b01010001, ports⟩ = .ok (.rxqPush packetA) := by decide
theorem test_decode_rxqPop : decode cfg ⟨.test, 0b01010010, ports⟩ = .ok .rxqPop := by decide
theorem test_decode_rxqPeek : decode cfg ⟨.test, 0b01010011, ports⟩ = .ok .rxqPeek := by decide
theorem test_decode_rxqClear : decode cfg ⟨.test, 0b01010100, ports⟩ = .ok .rxqClear := by decide

/-- Reserved opcodes next to a used one, in an unused unit, and at the end of the range (rule R93). -/
theorem test_decode_reserved :
    decode cfg ⟨.host, 0x05, ports⟩ = .error .reservedOpcode ∧
      decode cfg ⟨.test, 0x12, ports⟩ = .error .reservedOpcode ∧
      decode cfg ⟨.test, 0x60, ports⟩ = .error .reservedOpcode ∧
      decode cfg ⟨.host, 0xFF, ports⟩ = .error .reservedOpcode := by decide

/-- An opcode of the map on the other port (rules R91, R93). -/
theorem test_decode_wrong_port :
    decode cfg ⟨.test, 0x01, ports⟩ = .error .wrongPort ∧ decode cfg ⟨.host, 0x30, ports⟩ = .error .wrongPort := by
  decide

/-- Table words: the first bits of the word are the opcode (rule R90). -/
theorem test_table_words :
    decodeTableWord 8 0x11 = some (.crc8Step 0 0) ∧ decodeTableWord 8 0x53 = some .rxqPeek ∧
      decodeTableWord 8 0x45 = none := by decide

/-- A table word placed as the next command runs on the next step. -/
theorem test_fetched_word_runs :
    stepped (rxFull.withFetchWord 8 0x50) (fun t => (t.out.count, t.inputs)) = some (2, []) := by decide

/-- The assembler's `SEND 07, "hi"` (rule R97). -/
theorem test_asm_send : decode cfg (asmSend 0x07 [0x68, 0x69]) = .ok (.send 0x07 0x02 hi) := by decide

/-! ## CRC-8 (sections 2.1 and 2.2) -/

theorem test_crc8_check_value :
    crc8 [0x31, 0x32, 0x33, 0x34, 0x35, 0x36, 0x37, 0x38, 0x39] = 0xF4 := by decide +kernel
theorem test_crc8_of_hi : got (.crc8 2 (pad 255 [0x68, 0x69, 0xFF])) State.reset (·.out.byte) = some 0x45 := by
  decide +kernel
theorem test_crc8Step_first : got (.crc8Step 0x00 0x68) State.reset (·.out.byte) = some 0x1F := by decide
theorem test_crc8Step_second : got (.crc8Step 0x1F 0x69) State.reset (·.out.byte) = some 0x45 := by decide

/-! ## Byte-stuffer (sections 1, 3.1 and 3.2) -/

theorem test_encode_hi :
    got (.encode 0x07 2 hi) State.reset (fun t => (t.out.ok, t.out.frame, t.txq.count)) = some (1, frameHi, 0) := by
  decide +kernel
theorem test_encode_escapes :
    (encodeFrame cfg 0x07 [0x01, 0x02, 0x03]).map Frame.value =
      some [0x02, 0x0B, 0x07, 0x01, 0x01, 0x01, 0x02, 0x01, 0x03, 0x48, 0x03] := by decide +kernel

/-! ## Deframer (section 4, one byte of a vector at a time) -/

/-- The second byte of V3: the length, at BC = 1. -/
theorem test_rxStep_length :
    got (.rxStep 0x0B 0) (parsing 1 0 0 false []) (fun t => (t.rx.bc, t.rx.dlen)) = some (2, 0x0B) := by decide

/-- The last byte of V1: {07, "hi"} is delivered. -/
theorem test_rxStep_end :
    got (.rxStep 0x03 0) (parsing 6 7 7 false [0x68, 0x69, 0x45]) (fun t => (t.rx.bc, t.rxq.contents 2, t.trace)) =
      some (0, [⟨7, 2, hi⟩], [.frameOk]) := by decide +kernel

/-! ## FIFOs (sections 5.1, 5.2 and 5.4) -/

theorem test_txqCount : got .txqCount txFull (·.out.count) = some 2 := by decide
theorem test_txqPush_full :
    got (.txqPush frameHi) txFull (fun t => (t.txq, t.trace)) = some (txFull.txq, [.txFullDrop]) := by decide +kernel
theorem test_txqPush_too_long :
    got (.txqPush ⟨23, pad 22 []⟩) State.reset (fun t => (t.out.status, t.txq.count)) = some (1, 0) := by decide
theorem test_txqPop : got .txqPop txFull (fun t => (t.out.frame, t.txq.front, t.txq.back, t.txq.count)) =
    some (frameA, 1, 2, 1) := by decide +kernel
theorem test_txqPeek : got .txqPeek txFull (fun t => (t.out.frame, t.txq.count)) = some (frameA, 2) := by
  decide +kernel
theorem test_txqClear :
    got .txqClear txFull (fun t => (t.txq.front, t.txq.back, t.txq.count)) = some (0, 0, 0) := by decide
theorem test_rxqCount : got .rxqCount rxFull (·.out.count) = some 2 := by decide
theorem test_rxqPush_full :
    got (.rxqPush packetC) rxFull (fun t => (t.rxq.contents 2, t.rxq.front, t.rxq.back, t.trace)) =
      some ([packetB, packetC], 1, 0, [.rxEvict]) := by decide +kernel
theorem test_rxqPush_too_long :
    got (.rxqPush ⟨1, 9, pad 8 []⟩) State.reset (fun t => (t.out.status, t.rxq.count)) = some (1, 0) := by decide
theorem test_rxqPop : got .rxqPop rxFull (fun t => (t.out.packet, t.rxq.front, t.rxq.count)) =
    some (packetA, 1, 1) := by decide
theorem test_rxqPop_empty : got .rxqPop State.reset (fun t => (t.out.packet.plen, t.rxq.count, t.trace)) =
    some (0, 0, [.popEmpty]) := by decide
theorem test_rxqPeek : got .rxqPeek rxFull (fun t => (t.out.packet, t.rxq.count)) = some (packetA, 2) := by decide
theorem test_rxqClear :
    got .rxqClear rxFull (fun t => (t.rxq.front, t.rxq.back, t.rxq.count)) = some (0, 0, 0) := by decide

/-! ## Packet engine (section 6) -/

theorem test_nop : got .nop rxFull id = some { rxFull with out := quietResults cfg } := by decide +kernel
theorem test_send_hi :
    got (.send 0x07 2 hi) State.reset (fun t => (t.txq.contents 2, t.txq.front, t.txq.back, t.txq.count)) =
      some ([frameHi], 0, 1, 1) := by decide +kernel
theorem test_send_too_long :
    got (.send 0x07 9 hi) State.reset (fun t => (t.out.status, t.txq.count, t.trace)) =
      some (0, 0, [.txTooLong]) := by decide +kernel
theorem test_available : got .available rxFull (·.out.bool) = some 1 := by decide
theorem test_available_empty : got .available State.reset (·.out.bool) = some 0 := by decide
theorem test_read : got .read rxFull (fun t => (t.out.packet, t.rxq.count)) = some (packetA, 1) := by decide

/-- Five bytes wait, BPT = 4: four are read, each with a clock reading, and the last waits. -/
theorem test_service_reads :
    got .service { State.reset with chIn := [0x00, 0x02, 0x07, 0x07, 0x68], clock := [10, 20, 30, 40] }
      (fun t => (t.chIn, t.clock, t.rx.bc, t.rx.tstart, t.trace)) = some ([0x68], [], 3, 20, [.noise]) := by
  decide +kernel

/-- Two frames wait in TXQ: one is written. -/
theorem test_service_sends :
    got .service txFull (fun t => (t.chOut, t.txq.contents 2)) =
      some ([[0x02, 0x06, 0x01, 0x10, 0x70, 0x03]], [frameB]) := by decide +kernel

/-! ## Witnesses: for each statement with hypotheses, values that meet all of them, each clause at an edge of its range -/

theorem next_of_got {i : Instr} {s : State} (h : got i s (fun _ => ()) = some ()) : ∃ t, exec i s = .next t := by
  unfold got at h; split at h
  · exact ⟨_, ‹_›⟩
  · cases h

theorem next_of_stepped {s : State} (h : stepped s (fun _ => ()) = some ()) : ∃ t, step s = .next t := by
  unfold stepped at h; split at h
  · exact ⟨_, ‹_›⟩
  · cases h

/-- A command with nothing on its operand ports. -/
def bare (port : Port) (op : Byte) : Command := ⟨port, op, OperandPorts.idle⟩

/-- A stored payload of `n` zero bytes. -/
def zeros (n : Nat) : List Byte := List.replicate n 0x00#8

/-- The latest parse state of an on-time frame: MP+1 stored bytes, each escaped, and an escape pending (BC = MaxFrameLen). -/
def parsingLast : State := parsing 22 0x16 0x01 true (zeros 9)

/-- Bytes all presented at one time. -/
def at_ (t : Time) (bytes : List Byte) : List (Byte × Time) := bytes.map fun b => (b, t)

theorem witness_DecodeOfEncodeIsIdentity : Instr.wellFormed cfg (.rxStep 0xFF (2 ^ 32 - 1)) = true := by decide

theorem witness_DecodedInstructionIsItsCommand : decode cfg ⟨.host, 0x01, ports⟩ = .ok (.send 0x11 0x02 hi) := by decide

theorem witness_ReservedOpcodeIsIllegal_host :
    State.reset.cfg.Legal ∧ (presentCommand (bare .host 0x05) State.reset).inputs = .command (bare .host 0x05) :: [] ∧
      (bare .host 0x05).port = .host ∧ (bare .host 0x05).op ∉ [0x00#8, 0x01#8, 0x02#8, 0x03#8, 0x04#8] := by decide

theorem witness_ReservedOpcodeIsIllegal_test :
    State.reset.cfg.Legal ∧ (presentCommand (bare .test 0x55) State.reset).inputs = .command (bare .test 0x55) :: [] ∧
      (bare .test 0x55).port = .test ∧ (bare .test 0x55).op ∉ [0x10#8, 0x11#8, 0x20#8, 0x30#8, 0x40#8, 0x41#8, 0x42#8,
        0x43#8, 0x44#8, 0x50#8, 0x51#8, 0x52#8, 0x53#8, 0x54#8] := by decide +kernel

theorem witness_IllegalExactlyOutOfRangePush :
    (23#8).toNat > cfg.maxFrameLen ∧ (9#8).toNat > cfg.mp ∧ ∃ t, exec (.txqPush ⟨23, pad 22 []⟩) State.reset = .next t :=
  ⟨by decide, by decide, next_of_got (by decide)⟩

theorem witness_StepRunsTheDecodedInstruction :
    State.reset.cfg.Legal ∧
      (presentCommand (bare .test 0x44) State.reset).inputs = .command (bare .test 0x44) :: [] ∧
      decode cfg (bare .test 0x44) = .ok .txqClear := by decide

theorem witness_AgentsOnlySupplyTheirInputs :
    State.reset.cfg.Legal ∧ State.reset.inputs = [] ∧
      (State.reset.withInputs [.channel [0x02]]).inputs = .channel [0x02] :: [] ∧
      (State.reset.withInputs [.clock [7]]).inputs = .clock [7] :: [] := by decide

/-- Two equal reserved bytes, and a MaxPayloadLen of 125 (rules R9, R10). -/
theorem witness_IllegalConfigurationIsRefused :
    ¬ ({ cfg with endByte := 0x01 } : Config).Legal ∧ ¬ ({ cfg with mp := 125 } : Config).Legal := by decide

theorem witness_ResetInputResetsTheBlock :
    rxFull.cfg.Legal ∧ (rxFull.withInputs [.reset]).inputs = .reset :: [] := by decide

/-- The largest legal payload, which makes the largest frame 254 bytes (rule R10). -/
theorem witness_ResetMeetsTheInvariant : ({ cfg with mp := 124 } : Config).Legal := by decide

theorem witness_StepKeepsTheInvariant :
    (presentCommand (encode (.rxStep 0x03 100)) parsingLast).Inv ∧
      ∃ t, step (presentCommand (encode (.rxStep 0x03 100)) parsingLast) = .next t :=
  ⟨by decide +kernel, next_of_stepped (by decide +kernel)⟩

theorem witness_EveryRunIsSafe : parsingLast.Inv := by decide +kernel

theorem witness_EveryInstructionCompletes :
    rxFull.Inv ∧ Instr.wellFormed rxFull.cfg (.rxqPush packetC) = true := by decide +kernel

theorem witness_CrcDetectsOneChangedByte : (0x68#8 : Byte) ≠ 0x69 := by decide

theorem witness_Crc8ReturnsTheChecksum : (pad 255 [0x68]).length = 255 := by decide +kernel

/-- The longest accepted payload, and the shortest refused one (rule R129). -/
theorem witness_EncodeReturnsTheFrame :
    (pad 8 [0x68]).length = cfg.mp ∧ (8#8).toNat ≤ cfg.mp ∧ (9#8).toNat > cfg.mp := by decide

theorem witness_EncodedFrameLengthAndShape :
    cfg.Legal ∧ ∃ f, encodeFrame cfg 0x07 (List.replicate 8 0x01) = some f :=
  ⟨by decide, Option.isSome_iff_exists.1 (by decide +kernel)⟩

theorem witness_SendQueuesTheFrame :
    State.reset.Inv ∧ txFull.Inv ∧ (pad 8 []).length = cfg.mp ∧ (9#8).toNat > cfg.mp ∧ (8#8).toNat ≤ cfg.mp ∧
      txFull.txq.count = cfg.nTx ∧ State.reset.txq.count ≠ cfg.nTx :=
  ⟨by decide +kernel, by decide +kernel, by decide +kernel⟩

theorem witness_IdleByteBeginsAFrameOrIsNoise : State.reset.rx.bc = 0#8 := by decide

theorem witness_HeaderBytesAreStored :
    (parsing 1 0 0 false []).rx.bc = 1#8 ∧ (parsing 2 0x07 0 false []).rx.bc = 2#8 := by decide

/-- At the first payload byte, and exactly at the timeout. -/
theorem witness_PayloadEscapeIsCountedNotStored :
    3 ≤ (parsing 3 7 7 false []).rx.bc.toNat ∧ guardHolds (parsing 3 7 7 false []) 100 ∧
      (parsing 3 7 7 false []).rx.esc = false := by unfold guardHolds onTime; decide

/-- A byte with room for the last store, and one without room. -/
theorem witness_PayloadDataIsStored :
    (∀ s ∈ [parsing 11 0x20 1 false (zeros 8), parsing 12 0x20 1 false (zeros 9)],
      s.Inv ∧ 3 ≤ s.rx.bc.toNat ∧ guardHolds s 100 ∧ s.rx.esc = false ∧
        0x02 ≠ s.cfg.escapeByte ∧ 0x02 ≠ s.cfg.endByte) := by unfold guardHolds onTime; decide +kernel

theorem witness_EscapedByteIsStoredLiterally :
    (∀ s ∈ [parsing 12 0x20 1 true (zeros 8), parsingLast],
      s.Inv ∧ 3 ≤ s.rx.bc.toNat ∧ guardHolds s 100 ∧ s.rx.esc = true) := by unfold guardHolds onTime; decide +kernel

/-- V1, V4b, V5 and V7 at their End byte: one valid frame and the three drops. -/
theorem witness_FrameEndDeliversOrDrops :
    (∀ s ∈ [parsing 6 7 7 false [0x68, 0x69, 0x45], parsing 6 8 7 false [0x68, 0x69, 0x45],
        parsing 6 7 7 false [0x68, 0x69, 0x46], parsing 3 4 9 false []],
      s.Inv ∧ 3 ≤ s.rx.bc.toNat ∧ guardHolds s 0 ∧ s.rx.esc = false) ∧
    (∀ s ∈ [parsing 6 7 7 false [0x68, 0x69, 0x45]], 1 ≤ s.rx.pidx.toNat ∧ s.rx.bc.toNat + 1 = s.rx.dlen.toNat ∧
      s.rx.pbuf[s.rx.pidx.toNat - 1]? = some (crcOf (s.rx.pbuf.take (s.rx.pidx.toNat - 1)))) ∧
    (∀ s ∈ [parsing 6 8 7 false [0x68, 0x69, 0x45], parsing 6 7 7 false [0x68, 0x69, 0x46], parsing 3 4 9 false []],
      ¬ (1 ≤ s.rx.pidx.toNat ∧ s.rx.bc.toNat + 1 = s.rx.dlen.toNat ∧
        s.rx.pbuf[s.rx.pidx.toNat - 1]? = some (crcOf (s.rx.pbuf.take (s.rx.pidx.toNat - 1))))) := by
  unfold guardHolds onTime; decide +kernel

/-- Elapsed 101 trips (V13b) and 100 does not (V13); a BC of 23 trips; the two header states; no clock. -/
theorem witness_GuardAbandonsAndReexamines :
    (3 ≤ (parsing 4 7 7 false [0x68]).rx.bc.toNat ∧ tooLate cfg (parsing 4 7 7 false [0x68]).rx.tstart 101) ∧
    (3 ≤ (parsing 23 7 7 false []).rx.bc.toNat ∧ (parsing 23 7 7 false []).rx.bc.toNat > cfg.maxFrameLen) ∧
    guardHolds (parsing 4 7 7 false [0x68]) 100 ∧
    ((parsing 1 0 0 false []).rx.bc = 1#8 ∧ (parsing 2 7 0 false []).rx.bc = 2#8) ∧
    (State.resetWith { cfg with clockPresent := false }).cfg.clockPresent = false := by
  unfold guardHolds onTime tooLate; decide +kernel

/-- Frames of a body x: V1 (valid), V7 (no CRC byte), V4b (wrong length), V5 (wrong CRC). -/
theorem witness_ReceivedFrameVerdict :
    (∀ c ∈ [((0x07, [0x68, 0x69, 0x45]) : Byte × List Byte), (0x04, []), (0x08, [0x68, 0x69, 0x45]),
        (0x07, [0x68, 0x69, 0x46])],
      State.reset.Inv ∧ State.reset.rx.bc = 0#8 ∧ c.2.length ≤ cfg.mp + 1 ∧
        (at_ 5 (wire cfg c.1 0x07 c.2)).map Prod.fst = wire cfg c.1 0x07 c.2 ∧
        inTime cfg (at_ 5 (wire cfg c.1 0x07 c.2)) 5) ∧
    (∀ x ∈ [([0x68, 0x69, 0x45] : List Byte)],
      x ≠ [] ∧ (0x07#8).toNat = 4 + (stuffed cfg x).length ∧ x.getLast? = some (crcOf x.dropLast)) := by
  unfold inTime onTime; decide +kernel

/-- The largest payload, every byte of it escaped. -/
theorem witness_RoundTripDeliversThePacket :
    ∃ f, encodeFrame cfg 0x07 (List.replicate 8 0x01) = some f ∧ State.reset.Inv ∧ State.reset.rx.bc = 0#8 ∧
      (at_ 5 f.value).map Prod.fst = f.value ∧ inTime cfg (at_ 5 f.value) 5 :=
  ⟨⟨21, [0x02, 0x15, 0x07] ++ (List.replicate 8 [0x01, 0x01]).flatten ++ [0xE8, 0x03, 0x00]⟩, by
    unfold inTime onTime; decide +kernel⟩

/-- V2 with three noise bytes, EscapeByte and EndByte among them. -/
theorem witness_NoiseBeforeAFrameIsIgnored :
    State.reset.Inv ∧ State.reset.rx.bc = 0#8 ∧ [0x68#8, 0x69#8].length ≤ cfg.mp ∧
      (∀ q ∈ at_ 3 [0x00, 0x01, 0x03], q.1 ≠ cfg.startByte) ∧
      (at_ 5 (packetWire cfg 0x07 [0x68, 0x69])).map Prod.fst = packetWire cfg 0x07 [0x68, 0x69] ∧
      inTime cfg (at_ 5 (packetWire cfg 0x07 [0x68, 0x69])) 5 := by unfold inTime onTime; decide +kernel

/-- V11 with the smallest elapsed time that is a timeout. -/
theorem witness_TimeoutRecoversFromThePayloadState :
    (parsing 4 7 7 false [0x68]).Inv ∧ 3 ≤ (parsing 4 7 7 false [0x68]).rx.bc.toNat ∧
      [0x68#8, 0x69#8].length ≤ cfg.mp ∧
      (at_ 101 (packetWire cfg 0x07 [0x68, 0x69])).map Prod.fst = packetWire cfg 0x07 [0x68, 0x69] ∧
      tooLate cfg (parsing 4 7 7 false [0x68]).rx.tstart 101 ∧
      inTime cfg (at_ 101 (packetWire cfg 0x07 [0x68, 0x69])) 101 := by
  unfold inTime onTime tooLate; decide +kernel

/-- V28 and V29, and a frame with an escape pending. -/
theorem witness_TwoFillersRecoverFromEveryState :
    (∀ s ∈ [parsing 1 0 0 false [], parsing 2 7 0 false [], parsingLast],
      s.Inv ∧ 1 ≤ s.rx.bc.toNat ∧ tooLate cfg s.rx.tstart 200) ∧
    [0x68#8, 0x69#8].length ≤ cfg.mp ∧ (0x00#8 : Byte) ≠ cfg.startByte ∧ 200 < 2 ^ cfg.tw ∧
      (at_ 200 (packetWire cfg 0x07 [0x68, 0x69])).map Prod.fst = packetWire cfg 0x07 [0x68, 0x69] ∧
      inTime cfg (at_ 200 (packetWire cfg 0x07 [0x68, 0x69])) 200 := by
  unfold inTime onTime tooLate; decide +kernel

/-- V4 (a changed length), V5 (a changed CRC byte) and V6 (a changed payload byte). -/
theorem witness_OneChangedByteDropsTheFrame :
    State.reset.Inv ∧ State.reset.rx.bc = 0#8 ∧ [0x68#8, 0x69#8].length ≤ cfg.mp ∧
    ((0x06#8).toNat ≠ frameLen cfg [0x68, 0x69] ∧ inTime cfg (at_ 5 (wire cfg 0x06 0x07 (extended [0x68, 0x69]))) 5) ∧
    (extended [0x68, 0x69] = [0x68, 0x69] ++ 0x45 :: [] ∧ cfg.reserved 0x45 = false ∧ cfg.reserved 0x46 = false ∧
      inTime cfg (at_ 5 (wire cfg 0x07 0x07 ([0x68, 0x69] ++ 0x46 :: []))) 5) ∧
    (extended [0x68, 0x69] = [0x68] ++ 0x69 :: [0x45] ∧ cfg.reserved 0x69 = false ∧ cfg.reserved 0x68 = false ∧
      inTime cfg (at_ 5 (wire cfg 0x07 0x07 ([0x68] ++ 0x68 :: [0x45]))) 5) := by
  unfold inTime onTime
  exact ⟨by decide +kernel, by decide, by decide, by decide +kernel, by decide +kernel, by decide +kernel⟩

theorem witness_LengthGuardNeverTrips :
    (presentCommand (encode (.rxStep 0x03 100)) parsingLast).Inv ∧
      ∃ t, step (presentCommand (encode (.rxStep 0x03 100)) parsingLast) = .next t := witness_StepKeepsTheInvariant

theorem witness_OnlyPresentedBytesMoveTheParseState :
    (∃ t, exec .rxqClear parsingLast = .next t) ∧ Instr.rxqClear ≠ .service ∧ ∀ b now, Instr.rxqClear ≠ .rxStep b now :=
  ⟨next_of_got (by decide), by decide, by intro b now h; cases h⟩

/-- The longest legal frame and the shortest illegal one; a full TXQ and one with room. -/
theorem witness_TxqPushDropsTheNewest :
    State.reset.Inv ∧ txFull.Inv ∧ (23#8).toNat > cfg.maxFrameLen ∧ (22#8).toNat ≤ cfg.maxFrameLen ∧
      txFull.txq.count = cfg.nTx ∧ State.reset.txq.count ≠ cfg.nTx :=
  ⟨by decide +kernel, by decide +kernel, by decide +kernel⟩

theorem witness_RxqPushEvictsTheOldest :
    State.reset.Inv ∧ rxFull.Inv ∧ (9#8).toNat > cfg.mp ∧ (8#8).toNat ≤ cfg.mp ∧
      rxFull.rxq.count = cfg.nRx ∧ State.reset.rxq.count ≠ cfg.nRx :=
  ⟨by decide +kernel, by decide +kernel, by decide +kernel⟩

theorem witness_PopTakesTheOldest :
    (0 < txFull.txq.count ∧ txFull.txq.slots[txFull.txq.front]? = some frameA) ∧
      (0 < rxFull.rxq.count ∧ rxFull.rxq.slots[rxFull.rxq.front]? = some packetA) := by decide +kernel

theorem witness_PeekReadsTheOldest :
    (0 < txFull.txq.count ∧ txFull.txq.slots[txFull.txq.front]? = some frameA) ∧
      (0 < rxFull.rxq.count ∧ rxFull.rxq.slots[rxFull.rxq.front]? = some packetA) := witness_PopTakesTheOldest

theorem witness_PopOrPeekOfEmptyChangesNothing : State.reset.txq.count = 0 ∧ State.reset.rxq.count = 0 := by decide

/-- Empty, full and wrapped. -/
theorem witness_CircularBufferRefinesItsContents :
    Fifo.Wf 2 (Packet.Ok cfg) State.reset.rxq ∧ Fifo.Wf 2 (Packet.Ok cfg) rxFull.rxq ∧
      Fifo.Wf 2 (Packet.Ok cfg) ⟨[packetA, packetB, packetC], 1, 0, 2⟩ ∧ packetA.Ok cfg := by decide

theorem witness_PushPoliciesKeepFirstOrLast :
    1 ≤ 1 ∧ Fifo.Wf 1 (fun _ => True) (Fifo.reset 1 packetA) ∧ (Fifo.reset 1 packetA).count = 0 := by decide

/-- Five bytes wait, one more than BPT, and one clock sample fewer than are read: the last reading is a free value. -/
def waiting (s : State) : State := { s with chIn := [0x00, 0x02, 0x07, 0x07, 0x68], clock := [10, 20, 30] }

theorem witness_ServiceReadsThenSends :
    (waiting State.reset).Inv ∧ (waiting State.reset).txq.count = 0 ∧ serviceReads (waiting State.reset) = 4 ∧
      (waiting txFull).Inv ∧ (waiting txFull).txq.count ≠ 0 ∧
      (waiting txFull).txq.slots[(waiting txFull).txq.front]? = some frameA :=
  ⟨by decide +kernel, by decide, by decide, by decide +kernel, by decide, by decide +kernel⟩

/-- Bytes read, supplied and free clock readings, and a frame written. -/
theorem witness_ServiceWorkIsBounded :
    (waiting txFull).Inv ∧ ∃ t, exec .service (waiting txFull) = .next t ∧
      t.chIn = [0x68] ∧ t.clock = [] ∧ t.drawn = 1 ∧ t.chOut.length = 1 := by
  refine ⟨by decide +kernel, ?_⟩
  have h : got .service (waiting txFull) (fun t => (t.chIn, t.clock, t.drawn, t.chOut.length)) =
      some ([0x68], [], 1, 1) := by decide +kernel
  unfold got at h; split at h
  · simp only [Option.some.injEq, Prod.mk.injEq] at h; exact ⟨_, ‹_›, h⟩
  · cases h

theorem witness_ServiceDeliveriesAreBounded : (waiting txFull).Inv ∧ ∃ t, exec .service (waiting txFull) = .next t :=
  ⟨witness_ServiceWorkIsBounded.1, witness_ServiceWorkIsBounded.2.imp fun _ h => h.1⟩

theorem witness_SendThenServiceWritesTheFrame :
    State.reset.Inv ∧ (pad 8 []).length = cfg.mp ∧ (8#8).toNat ≤ cfg.mp ∧ State.reset.txq.count = 0 := by
  decide +kernel

/-- A dropped SEND, AVAILABLE, and a READ of an empty and of a full RXQ. -/
theorem witness_HostPortReportsNothing :
    (encode (.send 0x07 2 hi)).port = .host ∧ (∃ t, exec (.send 0x07 2 hi) txFull = .next t) ∧
      (Instr.send 0x07 2 hi).opcode ∈ [Opcode.nop, .send, .service] ∧
      (encode .available).port = .host ∧ (∃ t, exec .available rxFull = .next t) ∧
      (encode .read).port = .host ∧ (∃ t, exec .read State.reset = .next t) ∧
      (∃ t, exec .read rxFull = .next t) ∧ 0 < rxFull.rxq.count :=
  ⟨by decide, next_of_got (by decide +kernel), by decide, by decide, next_of_got (by decide), by decide,
    next_of_got (by decide), next_of_got (by decide), by decide⟩

theorem witness_ConstantsNeverChange : ∃ t, step (rxFull.withInputs [.reset]) = .next t :=
  next_of_stepped (by decide +kernel)

theorem witness_OnlyServiceUsesChannelAndClock :
    (∃ t, exec .txqPop txFull = .next t) ∧ Instr.txqPop ≠ .service := ⟨next_of_got (by decide +kernel), by decide⟩

theorem witness_PureOperationsAreIdempotent :
    Opcode.txqPeek ∈ [Opcode.nop, .available, .crc8, .crc8Step, .encode, .txqCount, .txqPeek, .rxqCount, .rxqPeek] ∧
      ∃ t, exec .txqPeek txFull = .next t := ⟨by decide, next_of_got (by decide +kernel)⟩

/-- A READ of a full RXQ after another command's results and events. -/
theorem witness_ResultsAndTraceAreNeverRead :
    (∃ t, step (presentCommand (bare .host 0x03) rxFull) = .next t) ∧
      (presentCommand (bare .host 0x03) rxFull).inputs = .command (bare .host 0x03) :: [] :=
  ⟨next_of_stepped (by decide +kernel), by decide⟩

/-- The reset state beside one whose unspecified registers hold other values. -/
theorem witness_UnspecifiedStateIsUnobservable :
    State.reset.Inv ∧ (parsing 0 0xAA 0xBB true [0xCC]).Inv ∧
      State.Alike State.reset (parsing 0 0xAA 0xBB true [0xCC]) ∧ ∃ t, step State.reset = .next t := by
  refine ⟨by decide +kernel, by decide +kernel, ?_, next_of_stepped (by decide +kernel)⟩
  unfold State.Alike Deframer.Alike Fifo.Alike
  decide +kernel

end Sys2Proof.Tests
end

