-- ==== Sys2Proof/Proofs/Reset.lean ====
section
/-! The registers of a parse state, of a FIFO and of the machine after reset (rule R50), and the statement about them.
The lemmas say nothing of the registers the rule leaves unspecified. -/

namespace Sys2Proof.Machine

@[simp] theorem Deframer.reset_bc (cfg : Config) : (Deframer.reset cfg).bc = 0#8 := rfl

section
variable {α : Type} (n : Nat) (default : α)

@[simp] theorem Fifo.reset_count : (Fifo.reset n default).count = 0 := rfl
@[simp] theorem Fifo.reset_front : (Fifo.reset n default).front = 0 := rfl
@[simp] theorem Fifo.reset_back : (Fifo.reset n default).back = 0 := rfl

/-- The three registers together, in the shape the reset statements use. -/
theorem Fifo.reset_registers :
    (Fifo.reset n default).count = 0 ∧ (Fifo.reset n default).front = 0 ∧ (Fifo.reset n default).back = 0 :=
  ⟨Fifo.reset_count n default, Fifo.reset_front n default, Fifo.reset_back n default⟩

end

section
variable (cfg : Config)

@[simp] theorem State.resetWith_cfg : (State.resetWith cfg).cfg = cfg := rfl
@[simp] theorem State.resetWith_rx : (State.resetWith cfg).rx = Deframer.reset cfg := rfl
@[simp] theorem State.resetWith_txq : (State.resetWith cfg).txq = Fifo.reset cfg.nTx (defaultFrame cfg) := rfl
@[simp] theorem State.resetWith_rxq : (State.resetWith cfg).rxq = Fifo.reset cfg.nRx (defaultPacket cfg) := rfl

end

/-- Settles O10: the reset machine is made of a reset parse state, two reset FIFOs and the given constants, so each
part's own reset values (rule R50) are its reset values. -/
theorem resetStateHasTheResetValues : Obligations.ResetStateHasTheResetValues := by
  intro cfg
  rw [State.resetWith_rx, State.resetWith_txq, State.resetWith_rxq]
  exact ⟨Deframer.reset_bc cfg, Fifo.reset_registers cfg.nTx (defaultFrame cfg),
    Fifo.reset_registers cfg.nRx (defaultPacket cfg), State.resetWith_cfg cfg⟩

end Sys2Proof.Machine
end

/-! The decoder in both directions (rules R91 to R93): which opcode bytes decode on which port. Then the operand values
that are refused (rule R94): what the two pushes answer beyond their ranges, and that every other completed instruction
answers `status = 0`. -/

namespace Sys2Proof.Machine

/-! ## The decoder -/

/-- A row of the opcode map holds its operation's own byte (rule R92). -/
theorem op_eq_opByte_of_mem_opTable : ∀ row ∈ opTable, row.op = opByte row.opcode := by decide

/-- A port accepts the unit of the operations that belong to it, and of no other (rules R91, R92). -/
theorem accepts_opByte_iff (port : Port) (k : Opcode) : port.accepts (unitOf (opByte k)) = true ↔ portOf k = port := by
  cases port <;> cases k <;> decide

/-- A byte decodes on a port exactly when it is the byte of an operation of that port (rules R91 to R93). -/
theorem decodeOpcode_eq_ok_iff {port : Port} {op : Byte} {k : Opcode} :
    decodeOpcode port op = .ok k ↔ portOf k = port ∧ opByte k = op := by
  constructor
  · intro h
    unfold decodeOpcode at h
    split at h
    next => cases h
    next row hfind =>
      have hop : row.op = op := by simpa using List.find?_some hfind
      have hbyte : opByte row.opcode = op :=
        (op_eq_opByte_of_mem_opTable row (List.mem_of_find?_eq_some hfind)).symm.trans hop
      split at h
      next hacc =>
        cases h
        exact ⟨(accepts_opByte_iff port row.opcode).1 (hbyte ▸ hacc), hbyte⟩
      next => cases h
  · rintro ⟨rfl, rfl⟩
    cases k <;> decide

/-- A command whose byte is that of no operation of its port does not decode (rule R93). -/
theorem decode_error_of_forall_ne (cfg : Config) {c : Command} (h : ∀ k, portOf k = c.port → opByte k ≠ c.op) :
    ∃ r, decode cfg c = .error r := by
  cases hd : decode cfg c with
  | error r => exact ⟨r, rfl⟩
  | ok i =>
    obtain ⟨k, hk, -⟩ := decode_eq_ok hd
    obtain ⟨hport, hop⟩ := decodeOpcode_eq_ok_iff.1 hk
    exact absurd hop (h k hport)

/-- The host opcodes (rule R92). -/
theorem opByte_mem_of_host {k : Opcode} (h : portOf k = .host) :
    opByte k ∈ [0x00#8, 0x01#8, 0x02#8, 0x03#8, 0x04#8] := by
  revert h; cases k <;> decide

/-- The test opcodes (rule R92). -/
theorem opByte_mem_of_test {k : Opcode} (h : portOf k = .test) :
    opByte k ∈ [0x10#8, 0x11#8, 0x20#8, 0x30#8, 0x40#8, 0x41#8, 0x42#8, 0x43#8, 0x44#8,
      0x50#8, 0x51#8, 0x52#8, 0x53#8, 0x54#8] := by
  revert h; cases k <;> decide

/-- Settles O4: the two lists are the bytes of each port's operations, so the command does not decode, and a command
that does not decode gets the illegal-command response. -/
theorem reservedOpcodeIsIllegal : Obligations.ReservedOpcodeIsIllegal := by
  intro s c rest hlegal hinputs hreserved
  have hne : ∀ k, portOf k = c.port → opByte k ≠ c.op := by
    intro k hport hop
    rcases hreserved with ⟨hc, hmem⟩ | ⟨hc, hmem⟩
    · exact hmem (hop ▸ opByte_mem_of_host (hport.trans hc))
    · exact hmem (hop ▸ opByte_mem_of_test (hport.trans hc))
  obtain ⟨r, hr⟩ := decode_error_of_forall_ne s.cfg hne
  rw [step_of_legal hlegal, runNextInput_cons hinputs]
  exact runCommand_error (s := s.withInputs rest) hr

/-! ## The refused operand values -/

/-- TXQ.PUSH of a frame longer than MaxFrameLen is the illegal command (rules R94, R189). -/
theorem exec_txqPush_of_tooLong {s : State} {f : Frame} (h : f.length.toNat > s.cfg.maxFrameLen) :
    exec (.txqPush f) s = .next (illegalCommand s) := if_pos h

/-- RXQ.PUSH of a packet with a plen above MP is the illegal command (rules R94, R194). -/
theorem exec_rxqPush_of_tooLong {s : State} {p : Packet} (h : p.plen.toNat > s.cfg.mp) :
    exec (.rxqPush p) s = .next (illegalCommand s) := if_pos h

/-- A plen above MP makes a sequence that Encode refuses, whatever the payload port carries (rule R121). -/
theorem encodeFrame_operandSeq_none {cfg : Config} (id : Byte) {plen : Byte} (payload : List Byte)
    (h : plen.toNat > cfg.mp) : encodeFrame cfg id (operandSeq plen payload) = none :=
  encodeFrame_none id (by rwa [length_operandSeq])

/-- SEND with a plen above MP only tells the trace (rules R94, R211). -/
theorem exec_send_of_tooLong {s : State} (id : Byte) {plen : Byte} (payload : List Byte) (h : plen.toNat > s.cfg.mp) :
    exec (.send id plen payload) s = .next (s.emit .txTooLong).done := by
  simp only [exec, execSend, encodeFrame_operandSeq_none id payload h]

/-- ENCODE with a plen above MP only tells the trace; its `ok` 0 and default frame are the quiet ones (rules R94, R129). -/
theorem exec_encode_of_tooLong {s : State} (id : Byte) {plen : Byte} (payload : List Byte) (h : plen.toNat > s.cfg.mp) :
    exec (.encode id plen payload) s = .next (s.emit .txTooLong).done := by
  simp only [exec, execEncode, encodeFrame_operandSeq_none id payload h]
  rfl

/-- An operation that ends by driving `status = 0`, however its work came out, answers `status = 0`. -/
theorem status_of_bindNext {α : Type} {o : Host.Outcome α Fault Refusal} {finish : α → State} {t : State}
    (hfinish : ∀ a, (finish a).out.status = 0#1) (h : bindNext o (fun a => .next (finish a)) = .next t) :
    t.out.status = 0#1 := by
  obtain ⟨a, -, h⟩ := bindNext_eq_next.1 h
  cases h
  exact hfinish a

/-- An instruction other than the two pushes beyond their ranges answers `status = 0` when it completes (rules R89, R94). -/
theorem status_eq_zero_of_exec {i : Instr} {s t : State} (h : exec i s = .next t)
    (hframe : ∀ f, i = .txqPush f → ¬ f.length.toNat > s.cfg.maxFrameLen)
    (hpacket : ∀ p, i = .rxqPush p → ¬ p.plen.toNat > s.cfg.mp) : t.out.status = 0#1 := by
  cases i with
  | nop | available | crc8 _ _ | crc8Step _ _ | txqCount | txqClear | rxqCount | rxqClear => cases h; rfl
  | read | rxStep _ _ | txqPop | txqPeek | rxqPop | rxqPeek => exact status_of_bindNext (fun _ => rfl) h
  | service => obtain ⟨u, v, -, -, rfl⟩ := execService_next h; rfl
  | send id plen payload =>
    simp only [exec, execSend] at h
    split at h
    · cases h; rfl
    · exact status_of_bindNext (fun _ => rfl) h
  | encode id plen payload =>
    simp only [exec, execEncode] at h
    split at h <;> cases h <;> rfl
  | txqPush f =>
    rw [exec, execTxqPush, if_neg (hframe f rfl)] at h
    exact status_of_bindNext (fun _ => rfl) h
  | rxqPush p =>
    rw [exec, execRxqPush, if_neg (hpacket p rfl)] at h
    exact status_of_bindNext (fun _ => rfl) h

/-- A completed instruction answers `status = 1` exactly when it is a push beyond its range (rule R94). -/
theorem status_eq_one_iff {i : Instr} {s t : State} (h : exec i s = .next t) :
    t.out.status = 1#1 ↔ (∃ f, i = .txqPush f ∧ f.length.toNat > s.cfg.maxFrameLen) ∨
      (∃ p, i = .rxqPush p ∧ p.plen.toNat > s.cfg.mp) := by
  constructor
  · intro hone
    by_contra hno
    rw [not_or] at hno
    have hzero := status_eq_zero_of_exec h (fun f hi hf => hno.1 ⟨f, hi, hf⟩) (fun p hi hp => hno.2 ⟨p, hi, hp⟩)
    rw [hzero] at hone
    exact absurd hone (by decide)
  · rintro (⟨f, rfl, hf⟩ | ⟨p, rfl, hp⟩)
    · rw [exec_txqPush_of_tooLong hf] at h; cases h; rfl
    · rw [exec_rxqPush_of_tooLong hp] at h; cases h; rfl

/-- Settles O5: one lemma for each refused operand, and the status of every completed instruction. -/
theorem illegalExactlyOutOfRangePush : Obligations.IllegalExactlyOutOfRangePush :=
  ⟨fun _ _ h => exec_txqPush_of_tooLong h, fun _ _ h => exec_rxqPush_of_tooLong h,
    fun _ id _ payload h => ⟨exec_send_of_tooLong id payload h, exec_encode_of_tooLong id payload h⟩,
    fun _ _ _ h => status_eq_one_iff h⟩

end Sys2Proof.Machine

/-! The two CRC-8 operations (rules R114, R115): what each answers, and the recursion that makes the chained updates the
CRC of the sequence. -/

namespace Sys2Proof.Machine

open Sys2Proof.Spec

/-! ## The CRC of a sequence -/

/-- The CRC of the empty sequence is the initial accumulator (rule R112). -/
@[simp] theorem crc8_nil : crc8 [] = 0x00#8 := rfl

/-- One more byte is one more table lookup (rules R111, R112). -/
theorem crc8_concat (p : List Byte) (b : Byte) : crc8 (p ++ [b]) = crcTable (crc8 p ^^^ b) :=
  List.foldl_concat crcUpdate 0x00#8 b p

/-! ## The two operations -/

/-- CRC8 drives `byte` with the CRC of its operand sequence and writes nothing else (rule R114). -/
theorem exec_crc8 (slen : Byte) (sbytes : List Byte) (s : State) :
    exec (.crc8 slen sbytes) s = .next (s.respond { quietResults s.cfg with byte := crc8 (operandSeq slen sbytes) }) :=
  rfl

/-- CRC8_STEP drives `byte` with one table lookup and writes nothing else (rule R115). -/
theorem exec_crc8Step (acc data : Byte) (s : State) :
    exec (.crc8Step acc data) s = .next (s.respond { quietResults s.cfg with byte := crcTable (acc ^^^ data) }) :=
  rfl

/-- On a port of 255 bytes every length operand is in range, so the operand sequence needs no fill (rule R114). -/
theorem operandSeq_of_length_255 (n : Byte) {bytes : List Byte} (h : bytes.length = 255) :
    operandSeq n bytes = bytes.take n.toNat :=
  operandSeq_of_le (by have := n.isLt; omega)

/-- Settles O19: the operand sequence is the first `slen` bytes of the port, and the rule's CRC of it is the model's. -/
theorem crc8ReturnsTheChecksum : Obligations.Crc8ReturnsTheChecksum := by
  intro s slen sbytes hlen
  rw [exec_crc8, operandSeq_of_length_255 slen hlen, ← crcOf_eq_crc8]
  rfl

/-- Settles O20: CRC8_STEP is one table lookup, and `crc8` starts at 0 and takes one lookup for each byte. -/
theorem crc8StepReturnsOneUpdate : Obligations.Crc8StepReturnsOneUpdate :=
  ⟨fun s acc data => exec_crc8Step acc data s, crc8_nil, crc8_concat⟩

end Sys2Proof.Machine

/-! The frame encoder's operation ENCODE (rule R129): its answer for an accepted payload, beside the refused one above
(`exec_encode_of_tooLong`). -/

namespace Sys2Proof.Machine

open Sys2Proof.Spec

/-- Encode accepts a `plen` of at most MP, and frames the first `plen` bytes of a full payload port (rules R121, R122). -/
theorem encodeFrame_operandSeq_some {cfg : Config} (id : Byte) {plen : Byte} {payload : List Byte}
    (hport : payload.length = cfg.mp) (h : plen.toNat ≤ cfg.mp) :
    encodeFrame cfg id (operandSeq plen payload) = some (packetFrame cfg id (payload.take plen.toNat)) := by
  rw [operandSeq_of_le (by omega)]
  exact encodeFrame_some id (by rw [List.length_take]; omega)

/-- ENCODE with a `plen` of at most MP drives `ok` 1 and the frame of the packet, and writes nothing else (rule R129). -/
theorem exec_encode_of_le {s : State} (id : Byte) {plen : Byte} {payload : List Byte}
    (hport : payload.length = s.cfg.mp) (h : plen.toNat ≤ s.cfg.mp) :
    exec (.encode id plen payload) s = .next (s.respond { quietResults s.cfg with
      ok := 1#1, frame := packetFrame s.cfg id (payload.take plen.toNat) }) := by
  simp only [exec, execEncode, encodeFrame_operandSeq_some id hport h]

/-- Settles O21: one lemma for each side of the bound MP. -/
theorem encodeReturnsTheFrame : Obligations.EncodeReturnsTheFrame :=
  fun _ id _ payload hport => ⟨exec_encode_of_le id hport, exec_encode_of_tooLong id payload⟩

end Sys2Proof.Machine

/-! The deframer byte by byte (rules R142 to R153): which rule classifies a byte, what RX_STEP answers where the guard
does not trip, and what it answers where it does. -/

namespace Sys2Proof.Machine

open Sys2Proof.Spec

/-- Abandoning is the return to Idle in the rules' formula (rule R143). -/
theorem abandon_eq (s : State) : abandon s = s.withRx (idled s.rx) := rfl

/-! ## The rule that classifies a byte -/

section
variable {s : State} {b : Byte} {t : Time}

/-- In Idle a byte is handled by the Idle rule (rule R144). -/
theorem classify_of_idle (h : s.rx.bc = 0#8) : classify b t s = .next (idleRule b t s) := if_pos h

/-- In the Length state a byte is handled by the Length rule (rule R145). -/
theorem classify_of_length (h : s.rx.bc = 1#8) : classify b t s = .next (lengthRule b s) := by
  simp [classify, h]

/-- In the Id state a byte is handled by the Id rule (rule R146). -/
theorem classify_of_id (h : s.rx.bc = 2#8) : classify b t s = .next (idRule b s) := by
  simp [classify, h]

/-- In the Payload state ESC and the byte's value choose the rule (rule R155). -/
theorem classify_of_payload (h : 3 ≤ s.rx.bc.toNat) :
    classify b t s =
      if s.rx.esc then storeByte b s
      else if b = s.cfg.escapeByte then .next (escapeRule s)
      else if b = s.cfg.endByte then endRule s
      else storeByte b s := by
  have ne_of_lt {k : Byte} (hk : k.toNat < 3) : s.rx.bc ≠ k := fun hbc => by rw [hbc] at h; omega
  rw [classify, if_neg (ne_of_lt (by decide)), if_neg (ne_of_lt (by decide)), if_neg (ne_of_lt (by decide))]
  rfl

/-! ## RX_STEP where the guard does not trip -/

/-- RX_STEP presents the byte, then drives the quiet result ports (rules R89, R155). -/
theorem exec_rxStep (b : Byte) (t : Time) (s : State) :
    exec (.rxStep b t) s = bindNext (rxStep b t s) fun u => .next u.done := rfl

/-- Where the guard does not trip, RX_STEP is the classification of the byte (rule R155). -/
theorem exec_rxStep_of_classify {u : State} (hguard : guardTrips t s = false) (h : classify b t s = .next u) :
    exec (.rxStep b t) s = .next u.done := by
  rw [exec_rxStep, rxStep_of_no_trip b hguard, h, bindNext_next]

/-- RX_STEP in Idle, where the guard is not examined (rules R142, R144). -/
theorem exec_rxStep_of_idle (h : s.rx.bc = 0#8) : exec (.rxStep b t) s = .next (idleRule b t s).done :=
  exec_rxStep_of_classify (guardTrips_of_header (by simp [h])) (classify_of_idle h)

/-- RX_STEP in the Length state, where the guard is not examined (rules R142, R145). -/
theorem exec_rxStep_of_length (h : s.rx.bc = 1#8) : exec (.rxStep b t) s = .next (lengthRule b s).done :=
  exec_rxStep_of_classify (guardTrips_of_header (by simp [h])) (classify_of_length h)

/-- RX_STEP in the Id state, where the guard is not examined (rules R142, R146). -/
theorem exec_rxStep_of_id (h : s.rx.bc = 2#8) : exec (.rxStep b t) s = .next (idRule b s).done :=
  exec_rxStep_of_classify (guardTrips_of_header (by simp [h])) (classify_of_id h)

/-- RX_STEP of a byte that is stored: the byte at PIDX and both counters advanced, with ESC 0, or the frame abandoned
for lack of room (rules R151 to R153). -/
theorem exec_rxStep_of_store (hinv : s.Inv) (hguard : guardHolds s t) (hstore : classify b t s = storeByte b s) :
    exec (.rxStep b t) s = .next (
      if s.rx.pidx.toNat < s.cfg.mp + 1 then
        { s with
          rx := { s.rx with
            pbuf := s.rx.pbuf.set s.rx.pidx.toNat b, pidx := s.rx.pidx + 1#8, esc := false, bc := s.rx.bc + 1#8 }
          out := quietResults s.cfg }
      else { s with rx := idled s.rx, trace := s.trace ++ [.dropOverflow], out := quietResults s.cfg }) := by
  rcases storeByte_spec hinv b with ⟨hroom, h⟩ | ⟨hroom, h⟩
  · rw [if_pos hroom, exec_rxStep_of_classify (guardTrips_of_guardHolds hguard) (hstore.trans h)]
    rfl
  · rw [if_neg hroom, exec_rxStep_of_classify (guardTrips_of_guardHolds hguard) (hstore.trans h)]
    rfl

/-- An unescaped EndByte in the Payload state is handled by the end rule (rule R148). -/
theorem classify_of_end (hlegal : s.cfg.Legal) (hbc : 3 ≤ s.rx.bc.toNat) (hesc : s.rx.esc = false) :
    classify s.cfg.endByte t s = endRule s := by
  obtain ⟨-, ⟨-, hne, -⟩, -⟩ := hlegal
  simp [classify_of_payload hbc, hesc, hne.symm]

/-! ## RX_STEP where the guard trips -/

/-- A guard that trips tells its first tripping condition, the length before the time, and abandons the frame (rules
R142, R143). -/
theorem rxGuard_of_late (hbc : 3 ≤ s.rx.bc.toNat)
    (hlate : s.rx.bc.toNat > s.cfg.maxFrameLen ∨ tooLate s.cfg s.rx.tstart t) :
    rxGuard t s =
      abandon (s.emit (if s.rx.bc.toNat > s.cfg.maxFrameLen then .dropGuardLen else .dropTimeout)) := by
  simp only [rxGuard, if_pos (guardTrips_of_late hbc hlate), lenTrip, decide_eq_true_eq]

/-- RX_STEP of a byte that trips the guard is RX_STEP of the same byte after the frame was abandoned (rule R142). -/
theorem exec_rxStep_of_late (hbc : 3 ≤ s.rx.bc.toNat)
    (hlate : s.rx.bc.toNat > s.cfg.maxFrameLen ∨ tooLate s.cfg s.rx.tstart t) :
    exec (.rxStep b t) s = exec (.rxStep b t) (abandon (s.emit
      (if s.rx.bc.toNat > s.cfg.maxFrameLen then .dropGuardLen else .dropTimeout))) := by
  rw [exec_rxStep, rxStep, rxGuard_of_late hbc hlate, classify_of_idle rfl, bindNext_next, exec_rxStep_of_idle rfl]

/-! ## Where the time value has no effect -/

/-- Without a clock no frame times out, so every time value leaves the guard with the same state (rule R142). -/
theorem rxGuard_of_no_clock (h : s.cfg.clockPresent = false) (t t' : Time) : rxGuard t s = rxGuard t' s := by
  simp only [rxGuard, guardTrips, timedOut, h, Bool.false_and]

/-- Without a clock a frame starts at time 0, so the time value does not reach the classification (rules R142, R144). -/
theorem classify_of_no_clock (h : s.cfg.clockPresent = false) (b : Byte) (t t' : Time) :
    classify b t s = classify b t' s := by
  simp only [classify, idleRule, h, Bool.false_eq_true, if_false]

/-- Without a clock the time value of a presented byte has no effect (rule R142). -/
theorem exec_rxStep_of_no_clock (h : s.cfg.clockPresent = false) (b : Byte) (t t' : Time) :
    exec (.rxStep b t) s = exec (.rxStep b t') s := by
  have hclock : (rxGuard t' s).cfg.clockPresent = false := by rwa [rxGuard_cfg]
  rw [exec_rxStep, exec_rxStep, rxStep, rxStep, rxGuard_of_no_clock h t t', classify_of_no_clock hclock b t t']

end

/-! ## The statements -/

/-- Settles O25: the two branches of the Idle rule. -/
theorem idleByteBeginsAFrameOrIsNoise : Obligations.IdleByteBeginsAFrameOrIsNoise := by
  intro s b t hbc
  rw [exec_rxStep_of_idle hbc, idleRule]
  split <;> rfl

/-- Settles O26: the Length and Id rules take every byte, and the guard is not examined. -/
theorem headerBytesAreStored : Obligations.HeaderBytesAreStored :=
  fun _ _ _ => ⟨exec_rxStep_of_length, exec_rxStep_of_id⟩

/-- Settles O27: the byte is classified by the escape rule. -/
theorem payloadEscapeIsCountedNotStored : Obligations.PayloadEscapeIsCountedNotStored := by
  intro s t hbc hguard hesc
  have hrule : classify s.cfg.escapeByte t s = .next (escapeRule s) := by simp [classify_of_payload hbc, hesc]
  exact exec_rxStep_of_classify (guardTrips_of_guardHolds hguard) hrule

/-- Settles O28: the byte is classified by the data rule, whose store writes ESC with the 0 it holds. -/
theorem payloadDataIsStored : Obligations.PayloadDataIsStored := by
  intro s b t hinv hbc hguard hesc hescape hend
  have hstore : classify b t s = storeByte b s := by simp [classify_of_payload hbc, hesc, hescape, hend]
  simp only [exec_rxStep_of_store hinv hguard hstore, hesc]

/-- Settles O29: after an escape the byte is classified by the literal rule, whatever its value. -/
theorem escapedByteIsStoredLiterally : Obligations.EscapedByteIsStoredLiterally := by
  intro s b t hinv hbc hguard hesc
  have hstore : classify b t s = storeByte b s := by simp [classify_of_payload hbc, hesc]
  exact exec_rxStep_of_store hinv hguard hstore

/-- Settles O30: the end rule delivers exactly the frames that `frameValid` accepts, which is the statement's
condition. -/
theorem frameEndDeliversOrDrops : Obligations.FrameEndDeliversOrDrops := by
  intro s t hinv hbc hguard hesc
  have hstep {u : State} (h : endRule s = .next u) : exec (.rxStep s.cfg.endByte t) s = .next u.done :=
    exec_rxStep_of_classify (guardTrips_of_guardHolds hguard) ((classify_of_end hinv.1 hbc hesc).trans h)
  rw [← frameValid_iff]
  rcases endRule_spec hinv hbc with ⟨hvalid, q, hq, -, -, h⟩ | ⟨hinvalid, h⟩
  · refine ⟨fun _ => ?_, fun hnot => absurd hvalid hnot⟩
    have hpidx : 1 ≤ s.rx.pidx.toNat := ((frameValid_iff s).1 hvalid).1
    rw [hstep h, hq, receivedPacket_eq hinv (by omega) hpidx, List.append_assoc]
    rfl
  · exact ⟨fun hvalid => absurd (hinvalid.symm.trans hvalid) (by decide), fun _ => hstep h⟩

/-- Settles O31: a byte that trips the guard is an Idle byte after the frame was abandoned, so the Idle statement O25
tells its effect; where the guard does not trip it changes nothing; the header rules and a block without a clock do not
use the time value. -/
theorem guardAbandonsAndReexamines : Obligations.GuardAbandonsAndReexamines := by
  refine ⟨fun s b t hbc hlate => ?_, fun s t _ hguard => ?_, fun s b t t' hheader => ?_,
    fun s b t t' hclock => exec_rxStep_of_no_clock hclock b t t'⟩
  · rw [exec_rxStep_of_late hbc hlate, idleByteBeginsAFrameOrIsNoise _ b t rfl]
    simp [abandon_eq]
  · rw [rxGuard, guardTrips_of_guardHolds hguard]
    rfl
  · rcases hheader with h | h
    · rw [exec_rxStep_of_length h, exec_rxStep_of_length h]
    · rw [exec_rxStep_of_id h, exec_rxStep_of_id h]

end Sys2Proof.Machine

/-! The two FIFO pushes of the test port (rules R189, R194), what the count operations read (rules R188, R193, R212) and
what CLEAR writes (rules R192, R197). A push does not examine the bytes of its element beyond the length bound, so its
lemmas ask only that BACK is within the slot array, where `fifoInsert_spec` asks for an element of the FIFO's kind. -/

namespace Sys2Proof.Machine

open Sys2Proof.Spec

/-! ## The generic pushes -/

section
variable {α : Type} {n : Nat} {q : Fifo α}

/-- A push on a FIFO with room writes the registers of the rules' formula, whatever the element (rule R183). -/
theorem fifoInsert_of_back_lt (x : α) (hback : q.back < q.slots.length) : fifoInsert n x q = .next (pushed n x q) := by
  rw [fifoInsert, slotWrite_eq_next.2 ⟨hback, rfl⟩]
  rfl

/-- Discarding the oldest of a full FIFO and pushing writes the registers of the rules' formula: the room made is the
room taken, so COUNT is the capacity again (rule R184). -/
theorem fifoInsert_dropOldest_of_full (x : α) (hn : 1 ≤ n) (hfull : q.count = n) (hback : q.back < q.slots.length) :
    fifoInsert n x (fifoDropOldest n q) = .next (evictPushed n x q) := by
  have hcount : q.count - 1 + 1 = n := by omega
  rw [fifoInsert_of_back_lt x (q := fifoDropOldest n q) hback]
  simp [pushed, evictPushed, fifoDropOldest, nextIndex, hcount]

end

/-! ## The pushes of the two instances -/

section
variable {s : State} {f : Frame} {p : Packet}

/-- TXQ.PUSH of a frame of at most MaxFrameLen is PushDrop (rule R189). -/
theorem exec_txqPush_of_le (h : f.length.toNat ≤ s.cfg.maxFrameLen) :
    exec (.txqPush f) s = bindNext (txqPushDrop f s) fun u => .next u.done :=
  if_neg (Nat.not_lt.2 h)

/-- RXQ.PUSH of a packet with a plen of at most MP is PushEvict (rule R194). -/
theorem exec_rxqPush_of_le (h : p.plen.toNat ≤ s.cfg.mp) :
    exec (.rxqPush p) s = bindNext (rxqPushEvict p s) fun u => .next u.done :=
  if_neg (Nat.not_lt.2 h)

/-- PushDrop on a full TXQ only tells the trace (rule R183). -/
theorem txqPushDrop_of_full (f : Frame) (hfull : s.txq.count = s.cfg.nTx) :
    txqPushDrop f s = .next (s.emit .txFullDrop) := by
  rw [txqPushDrop, fifoPushDrop, if_pos hfull]
  rfl

/-- PushDrop on a TXQ with room stores the frame and emits nothing (rule R183). -/
theorem txqPushDrop_of_room (f : Frame) (hback : s.txq.back < s.txq.slots.length) (hroom : s.txq.count ≠ s.cfg.nTx) :
    txqPushDrop f s = .next (s.withTxq (pushed s.cfg.nTx f s.txq)) := by
  rw [txqPushDrop, fifoPushDrop, if_neg hroom, fifoInsert_of_back_lt f hback]
  simp [emits_nil]

/-- PushEvict on a full RXQ stores the packet in place of the oldest and tells the trace (rule R184). -/
theorem rxqPushEvict_of_full (p : Packet) (hn : 1 ≤ s.cfg.nRx) (hback : s.rxq.back < s.rxq.slots.length)
    (hfull : s.rxq.count = s.cfg.nRx) :
    rxqPushEvict p s = .next ((s.withRxq (evictPushed s.cfg.nRx p s.rxq)).emit .rxEvict) := by
  rw [rxqPushEvict, fifoPushEvict, if_pos hfull, fifoInsert_dropOldest_of_full p hn hfull hback]
  rfl

/-- PushEvict on an RXQ with room stores the packet and emits nothing (rule R184). -/
theorem rxqPushEvict_of_room (p : Packet) (hback : s.rxq.back < s.rxq.slots.length) (hroom : s.rxq.count ≠ s.cfg.nRx) :
    rxqPushEvict p s = .next (s.withRxq (pushed s.cfg.nRx p s.rxq)) := by
  rw [rxqPushEvict, fifoPushEvict, if_neg hroom, fifoInsert_of_back_lt p hback]
  simp [emits_nil]

end

/-! ## The count operations and CLEAR -/

/-- AVAILABLE answers 1 exactly where RXQ holds a packet (rules R182, R212). -/
theorem bitOf_rxAvailable (s : State) : bitOf (rxAvailable s) = if s.rxq.count > 0 then 1#1 else 0#1 := by
  simp only [bitOf, rxAvailable, decide_eq_true_eq]

/-- TXQ.CLEAR clears TXQ and answers with the quiet results (rule R192). -/
theorem exec_txqClear (s : State) : exec .txqClear s = .next (s.withTxq (fifoClear s.txq)).done := rfl

/-- RXQ.CLEAR clears RXQ and answers with the quiet results (rule R197). -/
theorem exec_rxqClear (s : State) : exec .rxqClear s = .next (s.withRxq (fifoClear s.rxq)).done := rfl

/-- TXQ.COUNT drives `count` with TXQ's COUNT and writes nothing else (rule R188). -/
theorem exec_txqCount (s : State) :
    exec .txqCount s = .next (s.respond { quietResults s.cfg with count := countResult s.txq.count }) := rfl

/-- RXQ.COUNT drives `count` with RXQ's COUNT and writes nothing else (rule R193). -/
theorem exec_rxqCount (s : State) :
    exec .rxqCount s = .next (s.respond { quietResults s.cfg with count := countResult s.rxq.count }) := rfl

/-- AVAILABLE drives `bool` and writes nothing else (rule R212). -/
theorem exec_available (s : State) :
    exec .available s = .next (s.respond { quietResults s.cfg with bool := bitOf (rxAvailable s) }) := rfl

/-! ## The statements -/

/-- Settles O40: the illegal command beyond the bound, then the two branches of PushDrop; the FIFO invariant puts BACK
within the slot array, so the store cannot fault. -/
theorem txqPushDropsTheNewest : Obligations.TxqPushDropsTheNewest := by
  rintro s f ⟨-, -, htxq, -⟩
  refine ⟨exec_txqPush_of_tooLong, fun hle hfull => ?_, fun hle hroom => ?_⟩
  · rw [exec_txqPush_of_le hle, txqPushDrop_of_full f hfull]
    rfl
  · rw [exec_txqPush_of_le hle, txqPushDrop_of_room f htxq.back_lt hroom]
    rfl

/-- Settles O41: the illegal command beyond the bound, then the two branches of PushEvict; a legal configuration has a
capacity of at least 1, so a full RXQ has an oldest packet to discard. -/
theorem rxqPushEvictsTheOldest : Obligations.RxqPushEvictsTheOldest := by
  rintro s p ⟨⟨-, -, -, -, -, ⟨hn, -⟩, -⟩, -, -, hrxq⟩
  refine ⟨exec_rxqPush_of_tooLong, fun hle hfull => ?_, fun hle hroom => ?_⟩
  · rw [exec_rxqPush_of_le hle, rxqPushEvict_of_full p hn hrxq.back_lt hfull]
    rfl
  · rw [exec_rxqPush_of_le hle, rxqPushEvict_of_room p hrxq.back_lt hroom]
    rfl

/-- Settles O45: each of the three operations only drives its result port. -/
theorem countAndAvailableReadTheCount : Obligations.CountAndAvailableReadTheCount := by
  intro s
  refine ⟨exec_txqCount s, exec_rxqCount s, ?_⟩
  rw [exec_available, bitOf_rxAvailable]
  rfl

/-- Settles O46: CLEAR writes the three registers of its own FIFO, and the rest of the state is kept. -/
theorem clearEmptiesTheQueue : Obligations.ClearEmptiesTheQueue := fun s => ⟨exec_txqClear s, exec_rxqClear s⟩

end Sys2Proof.Machine

/-! The packet engine's operations on the host port (rules R210 to R220): what SEND queues, what READ drives, and that no
operation of the port reports what it met. -/

namespace Sys2Proof.Machine

open Sys2Proof.Spec

/-! ## NOP and SEND -/

/-- NOP drives the quiet result ports and writes nothing else (rule R210). -/
theorem exec_nop (s : State) : exec .nop s = .next s.done := rfl

/-- SEND with a `plen` of at most MP is PushDrop of the packet's frame (rule R211). -/
theorem exec_send_of_le {s : State} (id : Byte) {plen : Byte} {payload : List Byte}
    (hport : payload.length = s.cfg.mp) (h : plen.toNat ≤ s.cfg.mp) :
    exec (.send id plen payload) s =
      bindNext (txqPushDrop (packetFrame s.cfg id (payload.take plen.toNat)) s) fun u => .next u.done := by
  simp only [exec, execSend, encodeFrame_operandSeq_some id hport h]

/-! ## What the result ports hold -/

/-- SEND ends by driving the quiet result ports, whether it refused the payload or pushed its frame (rule R211). -/
theorem exec_send_out {id plen : Byte} {payload : List Byte} {s t : State}
    (h : exec (.send id plen payload) s = .next t) : t.out = quietResults s.cfg := by
  simp only [exec, execSend] at h
  split at h
  · cases h; rfl
  · obtain ⟨u, hu, h⟩ := bindNext_eq_next.1 h
    obtain ⟨q, evs, rfl⟩ := txqPushDrop_next hu
    cases h; rfl

/-- SERVICE ends by driving the quiet result ports; neither its read loop nor its send step writes a constant (rule
R214). -/
theorem exec_service_out {s t : State} (h : exec .service s = .next t) : t.out = quietResults s.cfg := by
  obtain ⟨u, v, hread, hsend, rfl⟩ := execService_next h
  obtain ⟨hcfg, -⟩ := readLoop_frame s.cfg.bpt hread
  obtain ⟨q, writes, evs, rfl⟩ := sendStep_next hsend
  exact congrArg quietResults hcfg

/-- The operations of the host port that name no result drive every port quiet (rules R89, R220). -/
theorem out_eq_quietResults_of_exec {i : Instr} {s t : State} (hi : i.opcode ∈ [Opcode.nop, .send, .service])
    (h : exec i s = .next t) : t.out = quietResults s.cfg := by
  cases i with
  | nop => cases h; rfl
  | send id plen payload => exact exec_send_out h
  | service => exact exec_service_out h
  | _ => simp [Instr.opcode] at hi

/-- A packet that Pop takes from a non-empty RXQ is the one in slot FRONT (rule R185). -/
theorem front_of_rxqTake {p : Packet} {s t : State} (h : rxqTake s = .next (p, t)) (hc : 0 < s.rxq.count) :
    s.rxq.slots[s.rxq.front]? = some p := by
  rw [rxqTake, fifoPop, if_neg (Nat.pos_iff_ne_zero.1 hc), bindNext_assoc] at h
  obtain ⟨x, hx, h⟩ := bindNext_eq_next.1 h
  cases h
  exact slotRead_eq_next.1 hx

/-- READ drives `packet` with the packet Pop takes from RXQ, and every other port quiet (rule R213). -/
theorem exec_read_out {s t : State} (h : exec .read s = .next t) :
    ∃ p u, rxqTake s = .next (p, u) ∧ t.out = { quietResults s.cfg with packet := p } := by
  obtain ⟨⟨p, u⟩, hu, h⟩ := bindNext_eq_next.1 h
  refine ⟨p, u, hu, ?_⟩
  obtain ⟨q, evs, rfl⟩ := rxqTake_next hu
  cases h; rfl

/-! ## The statements -/

/-- Settles O49: NOP only drives the quiet result ports. -/
theorem nopChangesNothing : Obligations.NopChangesNothing := exec_nop

/-- Settles O24: a payload beyond MP is refused; else the push of its frame is dropped on a full TXQ and stored on one
with room, where the FIFO invariant puts BACK within the slot array. -/
theorem sendQueuesTheFrame : Obligations.SendQueuesTheFrame := by
  rintro s id plen payload ⟨-, -, htxq, -⟩ hport
  refine ⟨exec_send_of_tooLong id payload, fun hle hfull => ?_, fun hle hroom => ?_⟩
  · rw [exec_send_of_le id hport hle, txqPushDrop_of_full _ hfull]
    rfl
  · rw [exec_send_of_le id hport hle, txqPushDrop_of_room _ htxq.back_lt hroom]
    rfl

/-- Settles O54: the two pushes that can answer `status = 1` are on the test port, and each host operation's result ports
are told by its own lemma. -/
theorem hostPortReportsNothing : Obligations.HostPortReportsNothing := by
  intro i s t hhost h
  refine ⟨status_eq_zero_of_exec h ?_ ?_, fun hi => out_eq_quietResults_of_exec hi h, ?_, ?_⟩
  · rintro f rfl; cases hhost
  · rintro p rfl; cases hhost
  · rintro rfl
    rw [exec_available, bitOf_rxAvailable] at h
    cases h; rfl
  · rintro rfl
    obtain ⟨p, u, hu, hout⟩ := exec_read_out h
    exact ⟨p, hout, front_of_rxqTake hu⟩

end Sys2Proof.Machine

/-! Reset as an input event (rule R260): what the step that takes it answers, which parts of the machine take their
reset values, and what it leaves as it was. -/

namespace Sys2Proof.Machine

/-! ## The parts of the block after reset -/

section
variable (s : State)

@[simp] theorem resetBlock_rx : (resetBlock s).rx = Deframer.reset s.cfg := rfl
@[simp] theorem resetBlock_txq : (resetBlock s).txq = Fifo.reset s.cfg.nTx (defaultFrame s.cfg) := rfl
@[simp] theorem resetBlock_rxq : (resetBlock s).rxq = Fifo.reset s.cfg.nRx (defaultPacket s.cfg) := rfl

/-- Reset leaves the constants, the channel, the clock and the other inputs as they were (rules R46, R260). -/
theorem resetBlock_frame :
    (resetBlock s).cfg = s.cfg ∧ (resetBlock s).chIn = s.chIn ∧ (resetBlock s).chOut = s.chOut ∧
      (resetBlock s).clock = s.clock ∧ (resetBlock s).drawn = s.drawn ∧ (resetBlock s).inputs = s.inputs := by
  simp [resetBlock]

end

/-- A legal machine whose next input is reset takes it and resets the block (rules R70, R260). -/
theorem step_of_reset {s : State} {rest : List Input} (hlegal : s.cfg.Legal) (hinputs : s.inputs = .reset :: rest) :
    step s = .next (resetBlock (s.withInputs rest)) := by
  rw [step_of_legal hlegal, runNextInput_cons hinputs, runInput]

/-! ## The statement -/

/-- Settles O9: the step resets the block, whose parse state and FIFOs are then reset ones with their own reset values
(rule R50), and reset leaves the rest as it was. -/
theorem resetInputResetsTheBlock : Obligations.ResetInputResetsTheBlock := by
  intro s rest hlegal hinputs
  refine ⟨resetBlock (s.withInputs rest), step_of_reset hlegal hinputs, ?_⟩
  rw [resetBlock_rx, resetBlock_txq, resetBlock_rxq]
  exact ⟨Deframer.reset_bc _, Fifo.reset_registers _ _, Fifo.reset_registers _ _,
    resetBlock_frame (s.withInputs rest)⟩

end Sys2Proof.Machine

/-! The decoder and the encoder as inverses (rules R89 to R92), and the step as the taking of one input (rules R6, R7,
R9). -/

namespace Sys2Proof.Machine

/-! ## Encoding and decoding -/

/-- The operand ports a well-formed instruction drives are read back as its own operands: each has its port's width, so
the fill of rule R89 does nothing. -/
theorem withOperands_operandsOf {cfg : Config} {i : Instr} (h : i.wellFormed cfg = true) :
    withOperands cfg (operandsOf i) i.opcode = i := by
  cases i with
  | nop | available | read | service => rfl
  | crc8Step _ _ => rfl
  | txqCount | txqPop | txqPeek | txqClear => rfl
  | rxqCount | rxqPop | rxqPeek | rxqClear => rfl
  | send id plen payload =>
    have hlen : payload.length = cfg.mp := by simpa [Instr.wellFormed] using h
    exact congrArg (Instr.send id plen) (fitBytes_of_length hlen)
  | encode id plen payload =>
    have hlen : payload.length = cfg.mp := by simpa [Instr.wellFormed] using h
    exact congrArg (Instr.encode id plen) (fitBytes_of_length hlen)
  | crc8 slen sbytes =>
    have hlen : sbytes.length = 255 := by simpa [Instr.wellFormed] using h
    exact congrArg (Instr.crc8 slen) (fitBytes_of_length hlen)
  | rxStep data now =>
    have hnow : now < 2 ^ cfg.tw := by simpa [Instr.wellFormed] using h
    exact congrArg (Instr.rxStep data) (Nat.mod_eq_of_lt hnow)
  | txqPush item =>
    have hlen : item.bytes.length = cfg.maxFrameLen := by simpa [Instr.wellFormed] using h
    exact congrArg (fun bytes => Instr.txqPush ⟨item.length, bytes⟩) (fitBytes_of_length hlen)
  | rxqPush item =>
    have hlen : item.data.length = cfg.mp := by simpa [Instr.wellFormed] using h
    exact congrArg (fun data => Instr.rxqPush ⟨item.id, item.plen, data⟩) (fitBytes_of_length hlen)

/-- A command whose opcode byte is read as an operation is that operation with its operands. -/
theorem decode_of_decodeOpcode {cfg : Config} {c : Command} {k : Opcode} (h : decodeOpcode c.port c.op = .ok k) :
    decode cfg c = .ok (withOperands cfg c.operands k) := by
  simp only [decode, h]

/-- Settles O2: the opcode byte is read back as the operation, and the operand ports as the operands. -/
theorem decodeOfEncodeIsIdentity : Obligations.DecodeOfEncodeIsIdentity := by
  intro cfg i hwf
  rw [decode_of_decodeOpcode (Laws.EncodedOpcode.of_opcode i).2]
  exact congrArg Except.ok (withOperands_operandsOf hwf)

/-- Settles O3: what decodes has the operation of the command's byte and port, and its own operand ports give it
back. -/
theorem decodedInstructionIsItsCommand : Obligations.DecodedInstructionIsItsCommand := by
  intro cfg c i h
  obtain ⟨k, hk, rfl⟩ := decode_eq_ok h
  obtain ⟨hport, hop⟩ := decodeOpcode_eq_ok_iff.1 hk
  have hwf := withOperands_wellFormed cfg c.operands k
  have hback := withOperands_operandsOf hwf
  rw [withOperands_opcode] at hback
  refine ⟨hwf, ?_, ?_, ?_⟩
  · rw [← hport]; exact congrArg portOf (withOperands_opcode cfg c.operands k)
  · rw [← hop]; exact congrArg opByte (withOperands_opcode cfg c.operands k)
  · have hsame := decode_of_decodeOpcode (cfg := cfg)
      (c := { c with operands := operandsOf (withOperands cfg c.operands k) }) hk
    exact hsame.trans (congrArg Except.ok hback)

/-- Settles O1: each word is the byte of its operation, on a port that accepts its unit. -/
theorem opcodeWordsDecodeToTheirInstructions : Obligations.OpcodeWordsDecodeToTheirInstructions := by
  intro cfg v
  have hdecode (k : Opcode) : decode cfg ⟨portOf k, opByte k, v⟩ = .ok (withOperands cfg v k) :=
    decode_of_decodeOpcode (decodeOpcode_eq_ok_iff.2 ⟨rfl, rfl⟩)
  exact ⟨hdecode .nop, hdecode .send, hdecode .service, hdecode .crc8Step, hdecode .encode, hdecode .rxStep,
    hdecode .txqPop, hdecode .rxqClear⟩

/-! ## The input a step takes -/

/-- A legal machine steps by running its next input on the state with that input taken (rules R6, R70). -/
theorem step_of_inputs {s : State} {inp : Input} {rest : List Input} (hlegal : s.cfg.Legal)
    (hinputs : s.inputs = inp :: rest) : step s = runInput inp (s.withInputs rest) := by
  rw [step_of_legal hlegal, runNextInput_cons hinputs]

/-- Settles O6: the next input is a command, and the command runs what it decodes to. -/
theorem stepRunsTheDecodedInstruction : Obligations.StepRunsTheDecodedInstruction := by
  intro s c rest i hlegal hinputs hdecode
  rw [step_of_inputs hlegal hinputs]
  exact runCommand_ok (s := s.withInputs rest) hdecode

/-- Settles O7: one case for each input that is no operation. -/
theorem agentsOnlySupplyTheirInputs : Obligations.AgentsOnlySupplyTheirInputs := by
  intro s hlegal
  refine ⟨fun hnil => ?_, fun bytes rest hinputs => ?_, fun samples rest hinputs => ?_⟩
  · rw [step_of_legal hlegal, runNextInput_nil hnil]
  · rw [step_of_inputs hlegal hinputs]; rfl
  · rw [step_of_inputs hlegal hinputs]; rfl

/-- Settles O8: the step examines the configuration before the input. -/
theorem illegalConfigurationIsRefused : Obligations.IllegalConfigurationIsRefused := fun _ => step_of_illegal

end Sys2Proof.Machine

/-! The CRC-8 table and the CRC's power to detect errors (section 1 of 40_crc8.md), then stuffing, destuffing and the
shape of an encoded frame. -/

namespace Sys2Proof.Machine

open Sys2Proof.Spec

/-! ## The table -/

/-- The feedback steps are linear over XOR, as each of them is (rule R110). -/
theorem crcShift_xor (n : Nat) (a b : Byte) : crcShift n (a ^^^ b) = crcShift n a ^^^ crcShift n b := by
  induction n generalizing a b with
  | zero => rfl
  | succ n ih => simp only [crcShift, crcFeedback_xor, ih]

/-- The feedback step loses nothing: the bit it shifts out is told by bit 0 of its result, as 0x07 is odd (rule
R110). -/
theorem eq_zero_of_crcFeedback_eq_zero : ∀ c : Byte, crcFeedback c = 0#8 → c = 0#8 := by decide

/-- Only 0 is taken to 0 by feedback steps. -/
theorem eq_zero_of_crcShift_eq_zero (n : Nat) {c : Byte} (h : crcShift n c = 0#8) : c = 0#8 := by
  induction n generalizing c with
  | zero => exact h
  | succ n ih => exact eq_zero_of_crcFeedback_eq_zero c (ih h)

/-- T is linear over XOR (section 1 of 40_crc8.md, property (d)). -/
theorem crcTable_xor (a b : Byte) : crcTable (a ^^^ b) = crcTable a ^^^ crcTable b := crcShift_xor 8 a b

/-- T[0] is 0 (property (b)). -/
@[simp] theorem crcTable_zero : crcTable 0#8 = 0#8 := by decide

/-- T is injective: a linear map with a trivial kernel. -/
theorem crcTable_injective {a b : Byte} (h : crcTable a = crcTable b) : a = b := by
  have hzero : crcTable (a ^^^ b) = 0#8 := by rw [crcTable_xor, h, BitVec.xor_self]
  exact BitVec.xor_eq_zero_iff.1 (eq_zero_of_crcShift_eq_zero 8 hzero)

/-- Settles O16. -/
theorem crcTableIsALinearPermutation : Obligations.CrcTableIsALinearPermutation :=
  ⟨crcTable_zero, fun _ _ => crcTable_injective, crcTable_xor⟩

/-- Settles O15, by evaluating the 256 entries. -/
theorem crcTableHasThePrintedValues : Obligations.CrcTableHasThePrintedValues := by
  unfold Obligations.CrcTableHasThePrintedValues
  decide +kernel

/-! ## Messages -/

/-- One more byte makes the CRC 0 exactly where it is the CRC so far. -/
theorem crc8_concat_eq_zero_iff (p : List Byte) (b : Byte) : crc8 (p ++ [b]) = 0#8 ↔ b = crc8 p := by
  rw [crc8_concat]
  constructor
  · intro h
    exact (BitVec.xor_eq_zero_iff.1 (crcTable_injective (h.trans crcTable_zero.symm))).symm
  · rintro rfl
    rw [BitVec.xor_self, crcTable_zero]

/-- Settles O17. -/
theorem crcOfMessageAndItsCrcIsZero : Obligations.CrcOfMessageAndItsCrcIsZero :=
  fun s => (crc8_concat_eq_zero_iff s (crc8 s)).2 rfl

/-- One update keeps different accumulators different (rule R111). -/
theorem crcUpdate_left_injective {acc acc' b : Byte} (h : crcUpdate acc b = crcUpdate acc' b) : acc = acc' :=
  BitVec.xor_left_inj b |>.1 (crcTable_injective h)

/-- So do the updates over a sequence. -/
theorem foldl_crcUpdate_injective (b : List Byte) {acc acc' : Byte}
    (h : b.foldl crcUpdate acc = b.foldl crcUpdate acc') : acc = acc' := by
  induction b generalizing acc acc' with
  | nil => exact h
  | cons y b ih => exact crcUpdate_left_injective (ih h)

/-- Settles O18: the accumulators differ after the changed byte, and every later update keeps them different. -/
theorem crcDetectsOneChangedByte : Obligations.CrcDetectsOneChangedByte := by
  intro a b x y hne h
  simp only [crc8, List.foldl_append, List.foldl_cons] at h
  have hbyte : crcTable (crc8 a ^^^ x) = crcTable (crc8 a ^^^ y) := foldl_crcUpdate_injective b h
  exact hne (BitVec.xor_right_inj _ |>.1 (crcTable_injective hbyte))

/-! ## Destuffing -/

/-- The byte after an EscapeByte is literal (rule R87). -/
theorem destuff_escape (cfg : Config) (z : Byte) (s : List Byte) :
    destuff cfg (cfg.escapeByte :: z :: s) = z :: destuff cfg s := by
  rw [destuff, if_pos rfl]

/-- Any other byte is itself (rule R87). -/
theorem destuff_cons_of_ne {cfg : Config} {y : Byte} (h : y ≠ cfg.escapeByte) (s : List Byte) :
    destuff cfg (y :: s) = y :: destuff cfg s := by
  cases s with
  | nil => simp [destuff, h]
  | cons z s => rw [destuff, if_neg h]

/-- EscapeByte is reserved (rule R9). -/
theorem ne_escapeByte_of_not_reserved {cfg : Config} {y : Byte} (h : ¬ cfg.reserved y = true) : y ≠ cfg.escapeByte := by
  rintro rfl; simp [Config.reserved] at h

/-- Settles O23, byte by byte: a reserved byte was escaped, and another byte is no EscapeByte. -/
theorem destuffInvertsStuff : Obligations.DestuffInvertsStuff := by
  intro cfg x
  induction x with
  | nil => rfl
  | cons y x ih =>
    rw [stuff]
    split
    next => rw [destuff_escape, ih]
    next h => rw [destuff_cons_of_ne (ne_escapeByte_of_not_reserved h), ih]

/-! ## The encoded frame -/

/-- Encode answers exactly where the payload fits, with the packet's frame (rules R121, R122). -/
theorem encodeFrame_eq_some_iff {cfg : Config} {id : Byte} {p : List Byte} {f : Frame} :
    encodeFrame cfg id p = some f ↔ p.length ≤ cfg.mp ∧ f = packetFrame cfg id p := by
  rcases Nat.lt_or_ge cfg.mp p.length with h | h
  · simp [encodeFrame_none id h, Nat.not_le.2 h]
  · simp [encodeFrame_some id h, h, eq_comm]

/-- The total length of a frame: 5 bytes around the payload, and one for each escape (rule R123). -/
theorem frameLen_eq (cfg : Config) (p : List Byte) :
    frameLen cfg p = 5 + p.length + (extended p).countP cfg.reserved := by
  simp only [frameLen, length_stuffed, extended, List.length_append, List.length_singleton]
  omega

/-- Settles O22: what Encode accepts is the packet's frame, whose length is the frame length with no wrap and within
MaxFrameLen. -/
theorem encodedFrameLengthAndShape : Obligations.EncodedFrameLengthAndShape := by
  intro cfg id p f hlegal h
  obtain ⟨hp, rfl⟩ := encodeFrame_eq_some_iff.1 h
  obtain ⟨hvalue, hlen⟩ := packetFrame_value hlegal id hp
  have hmax := (frameLen_le (cfg := cfg) hp).trans (maxFrameLen_le hlegal)
  have hmin : 5 ≤ frameLen cfg p := by rw [frameLen_eq]; omega
  refine ⟨hp, packetFrame_ok hlegal id hp, hlen.trans (frameLen_eq cfg p), by omega, by omega, hvalue, ?_, ?_⟩
  · rw [hvalue]; rfl
  · rw [hvalue, hlen]; exact length_packetWire cfg id p

end Sys2Proof.Machine

/-! What an instruction leaves unchanged, that every instruction completes within the invariant, and that every step
keeps the invariant, so that every run is safe (section 1 of 60_exceptions.md, sections 4 and 5 of 10_state.md). -/

namespace Sys2Proof.Machine

open Sys2Proof.Spec

/-! ## The parts of the invariant -/

section
variable {s : State}

theorem State.Inv.rx_wf (h : s.Inv) : s.rx.Wf s.cfg := h.2.1

theorem State.Inv.txq_wf (h : s.Inv) : s.txq.Wf s.cfg.nTx (Frame.Ok s.cfg) := h.2.2.1

theorem State.Inv.rxq_wf (h : s.Inv) : s.rxq.Wf s.cfg.nRx (Packet.Ok s.cfg) := h.2.2.2

/-- BC is at most MaxFrameLen (rule R157). -/
theorem State.Inv.bc_le (h : s.Inv) : s.rx.bc.toNat ≤ s.cfg.maxFrameLen := h.rx_wf.2.2.1

/-- Counting a byte does not wrap BC (rules R10, R157). -/
theorem State.Inv.bc_add_one (h : s.Inv) : (s.rx.bc + 1#8).toNat = s.rx.bc.toNat + 1 :=
  toNat_add_one (by have := h.bc_le; have := maxFrameLen_le h.1; omega)

theorem Fifo.Wf.count_le {α : Type} {n : Nat} {ok : α → Prop} {q : Fifo α} (h : q.Wf n ok) : q.count ≤ n := h.2.2.1

end

/-! ## Events of the FIFO operations -/

/-- The trace grew by events that are not the length guard's. -/
def AddsNoGuardLen (s t : State) : Prop := ∃ evs, t.trace = s.trace ++ evs ∧ TraceEvent.dropGuardLen ∉ evs

theorem AddsNoGuardLen.of_eq {s t : State} (h : t.trace = s.trace) : AddsNoGuardLen s t := ⟨[], by simp [h], by simp⟩

/-- PushDrop emits at most TX_FULL_DROP (rule R183). -/
theorem dropGuardLen_notMem_fifoPushDrop {α : Type} {n : Nat} {x : α} {q q' : Fifo α} {evs : List TraceEvent}
    (h : fifoPushDrop n x q = .next (q', evs)) : TraceEvent.dropGuardLen ∉ evs := by
  unfold fifoPushDrop at h
  split at h
  · cases h; decide
  · obtain ⟨_, -, h⟩ := bindNext_eq_next.1 h
    cases h; decide

/-- PushEvict emits at most RX_EVICT (rule R184). -/
theorem dropGuardLen_notMem_fifoPushEvict {α : Type} {n : Nat} {x : α} {q q' : Fifo α} {evs : List TraceEvent}
    (h : fifoPushEvict n x q = .next (q', evs)) : TraceEvent.dropGuardLen ∉ evs := by
  unfold fifoPushEvict at h
  split at h <;> (obtain ⟨_, -, h⟩ := bindNext_eq_next.1 h; cases h; decide)

/-- Pop emits at most POP_EMPTY (rule R185). -/
theorem dropGuardLen_notMem_fifoPop {α : Type} {n : Nat} {d : α} {q : Fifo α} {r : Popped α}
    (h : fifoPop n d q = .next r) : TraceEvent.dropGuardLen ∉ r.events := by
  unfold fifoPop at h
  split at h
  · cases h; simp
  · obtain ⟨_, -, h⟩ := bindNext_eq_next.1 h
    cases h; simp

/-! ## What an instruction leaves unchanged -/

/-- `t` is `s` after work on the FIFOs, the result ports and the trace. -/
structure KeptByQueues (s t : State) : Prop where
  cfg : t.cfg = s.cfg
  rx : t.rx = s.rx
  chIn : t.chIn = s.chIn
  chOut : t.chOut = s.chOut
  clock : t.clock = s.clock
  drawn : t.drawn = s.drawn
  inputs : t.inputs = s.inputs
  events : AddsNoGuardLen s t

section
variable {s t : State}

theorem KeptByQueues.refl (s : State) : KeptByQueues s s := ⟨rfl, rfl, rfl, rfl, rfl, rfl, rfl, .of_eq rfl⟩

theorem KeptByQueues.respond (h : KeptByQueues s t) (r : Results) : KeptByQueues s (t.respond r) := { h with }

theorem KeptByQueues.emit {ev : TraceEvent} (hev : ev ≠ .dropGuardLen) : KeptByQueues s (s.emit ev) :=
  ⟨rfl, rfl, rfl, rfl, rfl, rfl, rfl, [ev], rfl, by simpa using hev.symm⟩

theorem KeptByQueues.withTxq (q : Fifo Frame) : KeptByQueues s (s.withTxq q) :=
  ⟨rfl, rfl, rfl, rfl, rfl, rfl, rfl, .of_eq rfl⟩

theorem KeptByQueues.withRxq (q : Fifo Packet) : KeptByQueues s (s.withRxq q) :=
  ⟨rfl, rfl, rfl, rfl, rfl, rfl, rfl, .of_eq rfl⟩

theorem txqPushDrop_kept {x : Frame} (h : txqPushDrop x s = .next t) : KeptByQueues s t := by
  obtain ⟨r, hr, h⟩ := bindNext_eq_next.1 h
  cases h; exact ⟨rfl, rfl, rfl, rfl, rfl, rfl, rfl, r.2, rfl, dropGuardLen_notMem_fifoPushDrop hr⟩

theorem rxqPushEvict_kept {x : Packet} (h : rxqPushEvict x s = .next t) : KeptByQueues s t := by
  obtain ⟨r, hr, h⟩ := bindNext_eq_next.1 h
  cases h; exact ⟨rfl, rfl, rfl, rfl, rfl, rfl, rfl, r.2, rfl, dropGuardLen_notMem_fifoPushEvict hr⟩

theorem txqTake_kept {r : Frame × State} (h : txqTake s = .next r) : KeptByQueues s r.2 := by
  obtain ⟨p, hp, h⟩ := bindNext_eq_next.1 h
  cases h; exact ⟨rfl, rfl, rfl, rfl, rfl, rfl, rfl, p.events, rfl, dropGuardLen_notMem_fifoPop hp⟩

theorem rxqTake_kept {r : Packet × State} (h : rxqTake s = .next r) : KeptByQueues s r.2 := by
  obtain ⟨p, hp, h⟩ := bindNext_eq_next.1 h
  cases h; exact ⟨rfl, rfl, rfl, rfl, rfl, rfl, rfl, p.events, rfl, dropGuardLen_notMem_fifoPop hp⟩

/-- An illegal command is told on the result ports and in the trace only (rule R233). -/
theorem illegalCommand_kept (s : State) : KeptByQueues s (illegalCommand s) := (KeptByQueues.emit (by decide)).respond _

/-- An operation that keeps the rest and then drives result ports keeps the rest. -/
theorem KeptByQueues.of_bindNext {α : Type} {o : Host.Outcome α Fault Refusal} {after : α → State} {r : α → Results}
    (ho : ∀ a, o = .next a → KeptByQueues s (after a))
    (h : bindNext o (fun a => .next ((after a).respond (r a))) = .next t) : KeptByQueues s t := by
  obtain ⟨a, ha, h⟩ := bindNext_eq_next.1 h
  cases h; exact (ho a ha).respond _

end

/-- An instruction that presents no byte works on the FIFOs, the result ports and the trace only (section 2 of
10_state.md). -/
theorem exec_kept {i : Instr} {s t : State} (h : exec i s = .next t) (hservice : i ≠ .service)
    (hrx : ∀ b now, i ≠ .rxStep b now) : KeptByQueues s t := by
  cases i with
  | service => exact absurd rfl hservice
  | rxStep b now => exact absurd rfl (hrx b now)
  | nop | available | crc8 _ _ | crc8Step _ _ | txqCount | rxqCount => cases h; exact (KeptByQueues.refl s).respond _
  | txqClear => cases h; exact (KeptByQueues.withTxq _).respond _
  | rxqClear => cases h; exact (KeptByQueues.withRxq _).respond _
  | send id plen payload =>
    simp only [exec, execSend] at h
    split at h
    · cases h; exact (KeptByQueues.emit (by decide)).respond _
    · exact KeptByQueues.of_bindNext (fun _ => txqPushDrop_kept) h
  | encode id plen payload =>
    simp only [exec, execEncode] at h
    split at h
    · cases h; exact (KeptByQueues.emit (by decide)).respond _
    · cases h; exact (KeptByQueues.refl s).respond _
  | txqPush f =>
    simp only [exec, execTxqPush] at h
    split at h
    · cases h; exact illegalCommand_kept s
    · exact KeptByQueues.of_bindNext (fun _ => txqPushDrop_kept) h
  | rxqPush p =>
    simp only [exec, execRxqPush] at h
    split at h
    · cases h; exact illegalCommand_kept s
    · exact KeptByQueues.of_bindNext (fun _ => rxqPushEvict_kept) h
  | txqPop => exact KeptByQueues.of_bindNext (fun _ => txqTake_kept) h
  | rxqPop | read => exact KeptByQueues.of_bindNext (fun _ => rxqTake_kept) h
  | txqPeek | rxqPeek => exact KeptByQueues.of_bindNext (fun _ _ => .refl s) h

/-- No instruction writes a constant or the agents' pending inputs (rules R46, R70). -/
theorem exec_cfg_inputs {i : Instr} {s t : State} (h : exec i s = .next t) : t.cfg = s.cfg ∧ t.inputs = s.inputs := by
  by_cases hservice : i = .service
  · subst hservice
    obtain ⟨u, v, hread, hsend, rfl⟩ := execService_next h
    obtain ⟨hcfg, -, -, hinputs, -⟩ := readLoop_frame s.cfg.bpt hread
    obtain ⟨q, writes, evs, rfl⟩ := sendStep_next hsend
    exact ⟨hcfg, hinputs⟩
  by_cases hrx : ∃ b now, i = .rxStep b now
  · obtain ⟨b, now, rfl⟩ := hrx
    obtain ⟨u, hu, -, rfl⟩ := execRxStep_next h
    obtain ⟨hcfg, -, -, -, -, -, hinputs, -⟩ := hu.fields
    exact ⟨hcfg, hinputs⟩
  have hkept := exec_kept h hservice fun b now hi => hrx ⟨b, now, hi⟩
  exact ⟨hkept.cfg, hkept.inputs⟩

/-- Settles O39. -/
theorem onlyPresentedBytesMoveTheParseState : Obligations.OnlyPresentedBytesMoveTheParseState :=
  fun _ _ _ h hservice hrx => (exec_kept h hservice hrx).rx

/-- Settles O56: a presented byte changes the parse state, RXQ and the trace only, and the rest are FIFO and result
operations. -/
theorem onlyServiceUsesChannelAndClock : Obligations.OnlyServiceUsesChannelAndClock := by
  intro i s t h hservice
  by_cases hrx : ∃ b now, i = .rxStep b now
  · obtain ⟨b, now, rfl⟩ := hrx
    obtain ⟨u, hu, -, rfl⟩ := execRxStep_next h
    obtain ⟨-, -, hchIn, hchOut, hclock, hdrawn, -, -⟩ := hu.fields
    exact ⟨hchIn, hchOut, hclock, hdrawn⟩
  · have hkept := exec_kept h hservice fun b now hi => hrx ⟨b, now, hi⟩
    exact ⟨hkept.chIn, hkept.chOut, hkept.clock, hkept.drawn⟩

/-! ## What an input leaves unchanged -/

/-- A command runs an instruction or is illegal (rules R93, R233). -/
theorem runCommand_cases (c : Command) (s : State) :
    (∃ i, decode s.cfg c = .ok i ∧ runCommand c s = exec i s) ∨ runCommand c s = .next (illegalCommand s) := by
  cases hd : decode s.cfg c with
  | ok i => exact .inl ⟨i, rfl, runCommand_ok hd⟩
  | error r => exact .inr (runCommand_error hd)

/-- What a step of a legal machine is: idling, or running the input taken. -/
theorem step_cases {s : State} (hlegal : s.cfg.Legal) :
    (s.inputs = [] ∧ step s = .next s) ∨
      ∃ inp rest, s.inputs = inp :: rest ∧ step s = runInput inp (s.withInputs rest) := by
  cases hinputs : s.inputs with
  | nil => exact .inl ⟨rfl, by rw [step_of_legal hlegal, runNextInput_nil hinputs]⟩
  | cons inp rest => exact .inr ⟨inp, rest, rfl, step_of_inputs hlegal hinputs⟩

/-- No input writes a constant (rule R46). -/
theorem runInput_cfg {inp : Input} {s t : State} (h : runInput inp s = .next t) : t.cfg = s.cfg := by
  cases inp with
  | command c =>
    rcases runCommand_cases c s with ⟨i, -, hrun⟩ | hrun
    · exact (exec_cfg_inputs (hrun.symm.trans h)).1
    · cases hrun.symm.trans h; rfl
  | reset | channel _ | clock _ => cases h; rfl

/-- Settles O55. -/
theorem constantsNeverChange : Obligations.ConstantsNeverChange := by
  intro s t h
  rcases step_cases (legal_of_step_eq_next h) with ⟨-, hstep⟩ | ⟨inp, rest, -, hstep⟩
  · cases hstep.symm.trans h; rfl
  · have hcfg := runInput_cfg (hstep.symm.trans h)
    exact hcfg

/-! ## Every instruction completes within the invariant -/

section
variable {s : State}

/-- Driving the result ports keeps the invariant. -/
theorem State.Inv.respond (h : s.Inv) (r : Results) : (s.respond r).Inv := h

/-- The quiet result ports keep the invariant. -/
theorem State.Inv.done (h : s.Inv) : s.done.Inv := h

/-- The illegal-command response keeps the invariant (rule R233). -/
theorem State.Inv.illegalCommand (h : s.Inv) : (illegalCommand s).Inv := h

/-- A TXQ within its invariant keeps the machine's. -/
theorem State.Inv.withTxq (h : s.Inv) {q : Fifo Frame} (hq : q.Wf s.cfg.nTx (Frame.Ok s.cfg)) : (s.withTxq q).Inv :=
  ⟨h.1, h.rx_wf, hq, h.rxq_wf⟩

/-- An RXQ within its invariant keeps the machine's. -/
theorem State.Inv.withRxq (h : s.Inv) {q : Fifo Packet} (hq : q.Wf s.cfg.nRx (Packet.Ok s.cfg)) : (s.withRxq q).Inv :=
  ⟨h.1, h.rx_wf, h.txq_wf, hq⟩

/-- An operation that completes within the invariant and then drives result ports completes within it. -/
theorem completes_bindNext {α : Type} {o : Host.Outcome α Fault Refusal} {finish : α → State} {P : α → Prop}
    (h : ∃ a, o = .next a ∧ P a) (hfinish : ∀ a, P a → (finish a).Inv) :
    ∃ t, bindNext o (fun a => .next (finish a)) = .next t ∧ t.Inv := by
  obtain ⟨a, rfl, ha⟩ := h
  exact ⟨finish a, rfl, hfinish a ha⟩

/-- PushDrop on TXQ completes within the invariant (rule R183). -/
theorem txqPushDrop_inv (h : s.Inv) {x : Frame} (hx : x.Ok s.cfg) : ∃ t, txqPushDrop x s = .next t ∧ t.Inv := by
  rcases txqPushDrop_spec h hx with ⟨-, he⟩ | ⟨-, hwf, he⟩
  · exact ⟨_, he, h.emit _⟩
  · exact ⟨_, he, h.withTxq hwf⟩

/-- PushEvict on RXQ completes within the invariant (rule R184). -/
theorem rxqPushEvict_inv (h : s.Inv) {x : Packet} (hx : x.Ok s.cfg) : ∃ t, rxqPushEvict x s = .next t ∧ t.Inv := by
  obtain ⟨q, he, -, hwf, -⟩ := rxqPushEvict_spec h hx
  exact ⟨_, he, State.Inv.emits (h.withRxq hwf) _⟩

/-- Pop completes, and keeps the FIFO invariant (rule R185). -/
theorem fifoPop_wf {α : Type} {n : Nat} {ok : α → Prop} {q : Fifo α} (h : q.Wf n ok) (d : α) :
    ∃ r, fifoPop n d q = .next r ∧ r.fifo.Wf n ok := by
  rcases Nat.eq_zero_or_pos q.count with hc | hc
  · exact ⟨_, fifoPop_empty hc, h⟩
  · obtain ⟨x, hx, -⟩ := h.front_slot
    exact ⟨_, fifoPop_next hc hx, (fifoDropOldest_spec h hc).1⟩

/-- Pop on TXQ completes within the invariant (rule R185). -/
theorem txqTake_inv (h : s.Inv) : ∃ r, txqTake s = .next r ∧ r.2.Inv := by
  obtain ⟨r, he, hwf⟩ := fifoPop_wf h.txq_wf (defaultFrame s.cfg)
  exact ⟨_, by rw [txqTake, he, bindNext_next], State.Inv.emits (h.withTxq hwf) _⟩

/-- Pop on RXQ completes within the invariant (rule R185). -/
theorem rxqTake_inv (h : s.Inv) : ∃ r, rxqTake s = .next r ∧ r.2.Inv := by
  obtain ⟨r, he, hwf⟩ := fifoPop_wf h.rxq_wf (defaultPacket s.cfg)
  exact ⟨_, by rw [rxqTake, he, bindNext_next], State.Inv.emits (h.withRxq hwf) _⟩

/-- Peek completes on a FIFO within its invariant (rule R186). -/
theorem fifoPeek_completes {α : Type} {n : Nat} {ok : α → Prop} {q : Fifo α} (h : q.Wf n ok) (d : α) :
    ∃ x, fifoPeek d q = .next x := by
  unfold fifoPeek
  split
  · exact ⟨d, rfl⟩
  · obtain ⟨x, hx, -⟩ := h.front_slot
    exact ⟨x, slotRead_eq_next.2 hx⟩

/-- A clock reading fits its port (rule R239). -/
theorem sampleNow_lt (s : State) : (sampleNow s).1 < 2 ^ (sampleNow s).2.cfg.tw := by
  obtain ⟨hlt, samples, k, hstate⟩ := sampleNow_spec s
  rw [hstate]
  exact hlt

/-- SERVICE runs its two halves (rule R214). -/
theorem exec_service {u v : State} (hread : readLoop s.cfg.bpt s = .next u) (hsend : sendStep u = .next v) :
    exec .service s = .next v.done := by
  simp only [exec, execService, hread, hsend, bindNext_next]

/-- SERVICE completes within the invariant (rule R214). -/
theorem execService_inv (h : s.Inv) : ∃ t, exec .service s = .next t ∧ t.Inv := by
  obtain ⟨u, hread, hu⟩ := readLoop_inv s.cfg.bpt h
  obtain ⟨v, hsend, hv⟩ := sendStep_inv hu
  exact ⟨v.done, exec_service hread hsend, hv.done⟩

/-- Every well-formed instruction completes within the invariant (rule R230). -/
theorem exec_inv (h : s.Inv) {i : Instr} (hwf : i.wellFormed s.cfg = true) : ∃ t, exec i s = .next t ∧ t.Inv := by
  cases i with
  | nop | available | crc8 _ _ | crc8Step _ _ | txqCount | rxqCount => exact ⟨_, rfl, h⟩
  | txqClear => exact ⟨_, rfl, (h.withTxq (fifoClear_spec h.txq_wf).1).done⟩
  | rxqClear => exact ⟨_, rfl, (h.withRxq (fifoClear_spec h.rxq_wf).1).done⟩
  | send id plen payload =>
    simp only [exec, execSend]
    split
    · exact ⟨_, rfl, h⟩
    next f hf =>
      obtain ⟨hle, rfl⟩ := encodeFrame_eq_some_iff.1 hf
      exact completes_bindNext (txqPushDrop_inv h (packetFrame_ok h.1 id hle)) fun _ hu => hu.done
  | encode id plen payload =>
    simp only [exec, execEncode]
    split <;> exact ⟨_, rfl, h⟩
  | rxStep b now =>
    have hnow : now < 2 ^ s.cfg.tw := by simpa [Instr.wellFormed] using hwf
    exact completes_bindNext (rxStep_inv h b hnow) fun _ hu => hu.done
  | txqPush f =>
    have hfits : f.Fits s.cfg := by simpa [Instr.wellFormed] using hwf
    simp only [exec, execTxqPush]
    split
    · exact ⟨_, rfl, h.illegalCommand⟩
    next hle => exact completes_bindNext (txqPushDrop_inv h ⟨hfits, Nat.not_lt.1 hle⟩) fun _ hu => hu.done
  | rxqPush p =>
    have hfits : p.Fits s.cfg := by simpa [Instr.wellFormed] using hwf
    simp only [exec, execRxqPush]
    split
    · exact ⟨_, rfl, h.illegalCommand⟩
    next hle => exact completes_bindNext (rxqPushEvict_inv h ⟨hfits, Nat.not_lt.1 hle⟩) fun _ hu => hu.done
  | txqPop => exact completes_bindNext (txqTake_inv h) fun _ hu => hu.respond _
  | rxqPop | read => exact completes_bindNext (rxqTake_inv h) fun _ hu => hu.respond _
  | txqPeek =>
    obtain ⟨f, hf⟩ := fifoPeek_completes h.txq_wf (defaultFrame s.cfg)
    exact ⟨_, by rw [exec, execTxqPeek, hf, bindNext_next], h.respond _⟩
  | rxqPeek =>
    obtain ⟨p, hp⟩ := fifoPeek_completes h.rxq_wf (defaultPacket s.cfg)
    exact ⟨_, by rw [exec, execRxqPeek, hp, bindNext_next], h.respond _⟩
  | service => exact execService_inv h

end

/-- Settles O14. -/
theorem everyInstructionCompletes : Obligations.EveryInstructionCompletes := by
  intro s i hinv hwf
  obtain ⟨t, h, ht⟩ := exec_inv hinv hwf
  exact ⟨t, h, ht, exec_cfg_inputs h⟩

/-! ## Reset meets the invariant -/

/-- The parse state after reset is within rule R44. -/
theorem Deframer.reset_wf (cfg : Config) : (Deframer.reset cfg).Wf cfg := by
  refine ⟨by simp [Deframer.reset], ?_, by simp, by simp⟩
  exact Nat.two_pow_pos cfg.tw

/-- The default Frame is a Frame of rule R40. -/
theorem defaultFrame_ok (cfg : Config) : (defaultFrame cfg).Ok cfg := by
  simp [defaultFrame, Frame.Ok, Frame.Fits]

/-- The default Packet is a Packet of rule R39. -/
theorem defaultPacket_ok (cfg : Config) : (defaultPacket cfg).Ok cfg := by
  simp [defaultPacket, Packet.Ok, Packet.Fits]

/-- A legal machine with a reset parse state and reset FIFOs is within the invariant. -/
theorem inv_of_reset_parts {s : State} (hlegal : s.cfg.Legal) (hrx : s.rx = Deframer.reset s.cfg)
    (htxq : s.txq = Fifo.reset s.cfg.nTx (defaultFrame s.cfg))
    (hrxq : s.rxq = Fifo.reset s.cfg.nRx (defaultPacket s.cfg)) : s.Inv := by
  refine ⟨hlegal, ?_, ?_, ?_⟩
  · rw [hrx]; exact Deframer.reset_wf s.cfg
  · rw [htxq]; exact (Fifo.reset_spec (defaultFrame_ok s.cfg)).1
  · rw [hrxq]; exact (Fifo.reset_spec (defaultPacket_ok s.cfg)).1

/-- The example configuration of rule R12 is legal. -/
theorem Config.sample_legal : Config.sample.Legal := by decide

/-- Settles O11. -/
theorem resetMeetsTheInvariant : Obligations.ResetMeetsTheInvariant :=
  ⟨fun _ hlegal => inv_of_reset_parts hlegal rfl rfl rfl, inv_of_reset_parts Config.sample_legal rfl rfl rfl⟩

/-! ## Every step completes within the invariant -/

/-- Every input completes within the invariant (rules R230, R260). -/
theorem runInput_inv (inp : Input) {s : State} (h : s.Inv) : ∃ t, runInput inp s = .next t ∧ t.Inv := by
  cases inp with
  | command c =>
    rcases runCommand_cases c s with ⟨i, hd, hrun⟩ | hrun
    · obtain ⟨k, -, rfl⟩ := decode_eq_ok hd
      obtain ⟨t, ht, htinv⟩ := exec_inv h (withOperands_wellFormed s.cfg c.operands k)
      exact ⟨t, hrun.trans ht, htinv⟩
    · exact ⟨_, hrun, h.illegalCommand⟩
  | reset => exact ⟨_, rfl, inv_of_reset_parts h.1 rfl rfl rfl⟩
  | channel bytes => exact ⟨_, rfl, h⟩
  | clock samples => exact ⟨_, rfl, h⟩

/-- A step from a state within the invariant answers next, within the invariant. -/
theorem step_inv {s : State} (h : s.Inv) : ∃ t, step s = .next t ∧ t.Inv := by
  rcases step_cases h.1 with ⟨-, hstep⟩ | ⟨inp, rest, -, hstep⟩
  · exact ⟨s, hstep, h⟩
  · obtain ⟨t, ht, htinv⟩ := runInput_inv inp (s := s.withInputs rest) h
    exact ⟨t, hstep.trans ht, htinv⟩

/-- Settles O12. -/
theorem stepKeepsTheInvariant : Obligations.StepKeepsTheInvariant := by
  intro s t hinv h
  obtain ⟨u, hu, huinv⟩ := step_inv hinv
  cases hu.symm.trans h
  exact huinv

/-- A run is its first step and the run from there. -/
theorem safeRun_succ {k : Nat} {s t : State} (hstep : step s = .next t) (h : SafeRun k t) : SafeRun (k + 1) s := by
  obtain ⟨u, hu⟩ := h
  refine ⟨u, ?_⟩
  have hcore : core.step s = .next t := hstep
  simp only [Host.Core.run, hcore]
  exact hu

/-- Settles O13: each step answers next and keeps the invariant, so the rest of the run is safe too. -/
theorem everyRunIsSafe : Obligations.EveryRunIsSafe := by
  intro s hinv k
  induction k generalizing s with
  | zero => exact ⟨s, rfl⟩
  | succ k ih =>
    obtain ⟨t, hstep, ht⟩ := step_inv hinv
    exact safeRun_succ hstep (ih t ht)

end Sys2Proof.Machine

/-! The FIFO operations against the list of contents (sections 1 and 3 of 43_fifo.md), and what the pops and peeks
of the two instances answer (rules R185, R186, R213). -/

namespace Sys2Proof.Machine

open Sys2Proof.Spec

/-! ## The generic operations -/

section
variable {α : Type} {n : Nat} {ok : α → Prop} {q : Fifo α}

/-- PushDrop keeps full contents, else appends, and keeps the FIFO invariant (rule R183). -/
theorem fifoPushDrop_refines (h : q.Wf n ok) {x : α} (hx : ok x) :
    ∃ q' evs, fifoPushDrop n x q = .next (q', evs) ∧ q'.Wf n ok ∧
      q'.contents n = if (q.contents n).length = n then q.contents n else q.contents n ++ [x] := by
  rw [Fifo.length_contents h]
  rcases fifoPushDrop_cases h hx with ⟨hfull, hpush⟩ | ⟨hroom, q', hinsert, hpush⟩
  · exact ⟨q, _, hpush, h, by rw [if_pos hfull]⟩
  · obtain ⟨q'', hinsert', -, hwf, hcontents⟩ := fifoInsert_spec h hroom hx
    cases hinsert.symm.trans hinsert'
    exact ⟨q', _, hpush, hwf, by rw [if_neg (by omega), hcontents]⟩

/-- PushEvict drops the head of full contents, appends, and keeps the FIFO invariant (rule R184). -/
theorem fifoPushEvict_refines (h : q.Wf n ok) (hn : 1 ≤ n) {x : α} (hx : ok x) :
    ∃ q' evs, fifoPushEvict n x q = .next (q', evs) ∧ q'.Wf n ok ∧
      q'.contents n = (if (q.contents n).length = n then (q.contents n).tail else q.contents n) ++ [x] := by
  rw [Fifo.length_contents h]
  rcases fifoPushEvict_cases h hn hx with ⟨hfull, q', hinsert, hpush⟩ | ⟨hroom, q', hinsert, hpush⟩
  · obtain ⟨hdrop, hdropped⟩ := fifoDropOldest_spec h (by omega)
    have hroom : (fifoDropOldest n q).count < n := by simp only [fifoDropOldest]; omega
    obtain ⟨q'', hinsert', -, hwf, hcontents⟩ := fifoInsert_spec hdrop hroom hx
    cases hinsert.symm.trans hinsert'
    exact ⟨q', _, hpush, hwf, by rw [if_pos hfull, hcontents, hdropped]⟩
  · obtain ⟨q'', hinsert', -, hwf, hcontents⟩ := fifoInsert_spec h hroom hx
    cases hinsert.symm.trans hinsert'
    exact ⟨q', _, hpush, hwf, by rw [if_neg (by omega), hcontents]⟩

/-- An empty FIFO has no contents (rule R43). -/
theorem Fifo.contents_eq_nil_iff (h : q.Wf n ok) : q.contents n = [] ↔ q.count = 0 := by
  rw [← Fifo.length_contents h, List.length_eq_zero_iff]

/-- Where the contents have a head, it is in slot FRONT (rule R181). -/
theorem Fifo.front_slot_of_contents_cons (h : q.Wf n ok) {y : α} {ys : List α} (hcons : q.contents n = y :: ys) :
    0 < q.count ∧ q.slots[q.front]? = some y := by
  have hc : 0 < q.count := by rw [← Fifo.length_contents h, hcons]; exact Nat.succ_pos _
  exact ⟨hc, by rw [← Fifo.head_contents h hc, hcons]; rfl⟩

/-- Pop leaves the tail of the contents, answers their head where there is one, and keeps the FIFO invariant (rule
R185). -/
theorem fifoPop_refines (h : q.Wf n ok) (d : α) :
    ∃ r, fifoPop n d q = .next r ∧ r.fifo.Wf n ok ∧ r.fifo.contents n = (q.contents n).tail ∧
      ∀ y ys, q.contents n = y :: ys → r.item = y := by
  rcases Nat.eq_zero_or_pos q.count with hc | hc
  · have hnil := (Fifo.contents_eq_nil_iff h).2 hc
    exact ⟨_, fifoPop_empty hc, h, by simp [hnil], by simp [hnil]⟩
  · obtain ⟨x, hx, -⟩ := h.front_slot
    obtain ⟨hwf, hcontents⟩ := fifoDropOldest_spec h hc
    refine ⟨_, fifoPop_next hc hx, hwf, hcontents, fun y ys hcons => ?_⟩
    exact Option.some.inj (hx.symm.trans (Fifo.front_slot_of_contents_cons h hcons).2)

/-- Peek of a FIFO that holds an element answers the one in slot FRONT (rule R186). -/
theorem fifoPeek_next {d x : α} (hc : 0 < q.count) (hx : q.slots[q.front]? = some x) : fifoPeek d q = .next x := by
  rw [fifoPeek, if_neg (Nat.pos_iff_ne_zero.1 hc), slotRead_eq_next.2 hx]

/-- Peek answers the head of the contents where there is one (rule R186). -/
theorem fifoPeek_refines (h : q.Wf n ok) (d : α) :
    ∃ y, fifoPeek d q = .next y ∧ ∀ z zs, q.contents n = z :: zs → y = z := by
  obtain ⟨y, hy⟩ := fifoPeek_completes h d
  refine ⟨y, hy, fun z zs hcons => ?_⟩
  obtain ⟨hc, hz⟩ := Fifo.front_slot_of_contents_cons h hcons
  cases hy.symm.trans (fifoPeek_next hc hz)
  rfl

end

/-- Settles O47: one lemma for each operation. -/
theorem circularBufferRefinesItsContents : Obligations.CircularBufferRefinesItsContents :=
  fun _ _ _ _ _ d hn h hx =>
    ⟨(Fifo.length_contents h).symm, fifoPushDrop_refines h hx, fifoPushEvict_refines h hn hx, fifoPop_refines h d,
      fifoPeek_refines h d, fifoClear_spec h⟩

/-! ## A list of pushes -/

section
variable {α : Type} {n : Nat} {ok : α → Prop}

/-- Pushes under drop-newest leave the first n of what was held and pushed (rule R198). -/
theorem pushAll_fifoPushDrop {q : Fifo α} (h : q.Wf n ok) {xs : List α} (hxs : ∀ x ∈ xs, ok x) :
    ∃ q', pushAll (fifoPushDrop n) xs q = .next q' ∧ q'.contents n = (q.contents n ++ xs).take n := by
  have hle : ∀ {q : Fifo α}, q.Wf n ok → (q.contents n).length ≤ n := fun hq => by
    rw [Fifo.length_contents hq]; exact hq.count_le
  induction xs generalizing q with
  | nil => exact ⟨q, rfl, by rw [List.append_nil, List.take_of_length_le (hle h)]⟩
  | cons x xs ih =>
    obtain ⟨hx, hxs⟩ := List.forall_mem_cons.1 hxs
    obtain ⟨q₁, evs, hpush, hwf, hcontents⟩ := fifoPushDrop_refines h hx
    obtain ⟨q', hall, hq'⟩ := ih hwf hxs
    refine ⟨q', by rw [pushAll, hpush, bindNext_next, hall], ?_⟩
    rw [hq', hcontents]
    split
    next hfull => simp only [List.take_append, hfull, Nat.sub_self, List.take_zero]
    next => rw [List.append_assoc, List.singleton_append]

/-- Pushes under evict-oldest leave the last n of what was held and pushed (rule R199). -/
theorem pushAll_fifoPushEvict {q : Fifo α} (hn : 1 ≤ n) (h : q.Wf n ok) {xs : List α} (hxs : ∀ x ∈ xs, ok x) :
    ∃ q', pushAll (fifoPushEvict n) xs q = .next q' ∧
      q'.contents n = (q.contents n ++ xs).drop ((q.contents n ++ xs).length - n) := by
  have hle : ∀ {q : Fifo α}, q.Wf n ok → (q.contents n).length ≤ n := fun hq => by
    rw [Fifo.length_contents hq]; exact hq.count_le
  induction xs generalizing q with
  | nil => exact ⟨q, rfl, by rw [List.append_nil, Nat.sub_eq_zero_of_le (hle h), List.drop_zero]⟩
  | cons x xs ih =>
    obtain ⟨hx, hxs⟩ := List.forall_mem_cons.1 hxs
    obtain ⟨q₁, evs, hpush, hwf, hcontents⟩ := fifoPushEvict_refines h hn hx
    obtain ⟨q', hall, hq'⟩ := ih hwf hxs
    refine ⟨q', by rw [pushAll, hpush, bindNext_next, hall], ?_⟩
    rw [hq', hcontents]
    split
    next hfull =>
      obtain ⟨y, ys, hcons⟩ := List.exists_cons_of_length_pos (l := q.contents n) (by omega)
      rw [hcons] at hfull ⊢
      have hlen : (y :: ys ++ x :: xs).length - n = (ys ++ [x] ++ xs).length - n + 1 := by
        simp only [List.length_append, List.length_cons, List.length_nil] at hfull ⊢
        omega
      rw [hlen, List.tail_cons, List.cons_append, List.drop_succ_cons, List.append_assoc, List.singleton_append]
    next => rw [List.append_assoc, List.singleton_append]

end

/-- Settles O48: from empty, what was held and pushed is what was pushed. -/
theorem pushPoliciesKeepFirstOrLast : Obligations.PushPoliciesKeepFirstOrLast := by
  intro α n q xs hn h hempty
  have hnil := (Fifo.contents_eq_nil_iff h).2 hempty
  obtain ⟨q₁, hdrop, hfirst⟩ := pushAll_fifoPushDrop h (xs := xs) (fun _ _ => trivial)
  obtain ⟨q₂, hevict, hlast⟩ := pushAll_fifoPushEvict hn h (xs := xs) (fun _ _ => trivial)
  rw [hnil, List.nil_append] at hfirst hlast
  exact ⟨⟨q₁, hdrop, hfirst⟩, ⟨q₂, hevict, hlast⟩⟩

/-! ## Pop and Peek on the two instances -/

section
variable {s : State}

/-- Pop on a TXQ that holds a frame (rule R185). -/
theorem txqTake_of_front {f : Frame} (hc : 0 < s.txq.count) (hf : s.txq.slots[s.txq.front]? = some f) :
    txqTake s = .next (f, s.withTxq (popped s.cfg.nTx s.txq)) := by
  rw [txqTake, fifoPop_next hc hf, bindNext_next, emits_nil]
  rfl

/-- Pop on an RXQ that holds a packet (rule R185). -/
theorem rxqTake_of_front {p : Packet} (hc : 0 < s.rxq.count) (hp : s.rxq.slots[s.rxq.front]? = some p) :
    rxqTake s = .next (p, s.withRxq (popped s.cfg.nRx s.rxq)) := by
  rw [rxqTake, fifoPop_next hc hp, bindNext_next, emits_nil]
  rfl

/-- Pop on an empty TXQ only tells the trace (rule R185). -/
theorem txqTake_of_empty (hc : s.txq.count = 0) : txqTake s = .next (defaultFrame s.cfg, s.emit .popEmpty) := by
  rw [txqTake, fifoPop_empty hc, bindNext_next]
  rfl

/-- Pop on an empty RXQ only tells the trace (rule R185). -/
theorem rxqTake_of_empty (hc : s.rxq.count = 0) : rxqTake s = .next (defaultPacket s.cfg, s.emit .popEmpty) := by
  rw [rxqTake, fifoPop_empty hc, bindNext_next]
  rfl

/-- TXQ.POP is Pop with the frame on its result port (rule R190). -/
theorem exec_txqPop {f : Frame} {u : State} (h : txqTake s = .next (f, u)) :
    exec .txqPop s = .next (u.respond { quietResults s.cfg with frame := f }) := by
  simp only [exec, execTxqPop, h, bindNext_next]

/-- READ and RXQ.POP are Pop with the packet on its result port (rules R195, R213). -/
theorem exec_rxqPop_read {p : Packet} {u : State} (h : rxqTake s = .next (p, u)) :
    exec .rxqPop s = .next (u.respond { quietResults s.cfg with packet := p }) ∧
      exec .read s = .next (u.respond { quietResults s.cfg with packet := p }) := by
  simp only [exec, execRxqPop, execRead, rxqTakeResult, h, bindNext_next, and_self]

/-- TXQ.PEEK drives its result port only (rule R191). -/
theorem exec_txqPeek {f : Frame} (h : fifoPeek (defaultFrame s.cfg) s.txq = .next f) :
    exec .txqPeek s = .next (s.respond { quietResults s.cfg with frame := f }) := by
  simp only [exec, execTxqPeek, h, bindNext_next]

/-- RXQ.PEEK drives its result port only (rule R196). -/
theorem exec_rxqPeek {p : Packet} (h : fifoPeek (defaultPacket s.cfg) s.rxq = .next p) :
    exec .rxqPeek s = .next (s.respond { quietResults s.cfg with packet := p }) := by
  simp only [exec, execRxqPeek, h, bindNext_next]

end

/-- Settles O42. -/
theorem popTakesTheOldest : Obligations.PopTakesTheOldest :=
  ⟨fun _ _ hc hf => exec_txqPop (txqTake_of_front hc hf), fun _ _ hc hp => exec_rxqPop_read (rxqTake_of_front hc hp)⟩

/-- Settles O43. -/
theorem peekReadsTheOldest : Obligations.PeekReadsTheOldest :=
  ⟨fun _ _ hc hf => exec_txqPeek (fifoPeek_next hc hf), fun _ _ hc hp => exec_rxqPeek (fifoPeek_next hc hp)⟩

/-- Settles O44: the model answers the default element, which the statement leaves open. -/
theorem popOrPeekOfEmptyChangesNothing : Obligations.PopOrPeekOfEmptyChangesNothing := by
  refine ⟨fun s hc => ⟨⟨_, exec_txqPop (txqTake_of_empty hc)⟩, ⟨_, exec_txqPeek (if_pos hc)⟩⟩, fun s hc => ?_⟩
  obtain ⟨hpop, hread⟩ := exec_rxqPop_read (rxqTake_of_empty hc)
  exact ⟨⟨_, hpop⟩, ⟨_, hread⟩, ⟨_, exec_rxqPeek (if_pos hc)⟩⟩

end Sys2Proof.Machine

/-! The result ports and the trace are written and never read (rules R48, R232). -/

namespace Sys2Proof.Machine

open Sys2Proof.Spec

/-- A state seen from one that differs only in its outputs: the same state with an empty trace, retold. -/
theorem eq_retold_of_sameButOutputs {s t : State} (h : sameButOutputs s t) :
    t = State.retold { s with trace := [] } t.out t.trace := by
  obtain ⟨hcfg, hrx, htxq, hrxq, hchIn, hchOut, hclock, hdrawn, hinputs⟩ := h
  ext1 <;> simp [State.retold, *]

theorem sameButOutputs_refl (s : State) : sameButOutputs s s := ⟨rfl, rfl, rfl, rfl, rfl, rfl, rfl, rfl, rfl⟩

/-- An instruction issued in a state with other outputs makes the same change, adds the same events and answers the same
results. -/
theorem exec_of_sameButOutputs {i : Instr} {s s' t : State} (hsame : sameButOutputs s s') (h : exec i s = .next t) :
    ∃ t' added, exec i s' = .next t' ∧ sameButOutputs t t' ∧ t.trace = s.trace ++ added ∧
      t'.trace = s'.trace ++ added ∧ t'.out = t.out := by
  rw [eq_retold_of_sameButOutputs (sameButOutputs_refl s), exec_retold] at h
  obtain ⟨u, hu, h⟩ := bindNext_eq_next.1 h
  cases h
  have h' : exec i s' = .next (u.after s'.trace) := by
    conv_lhs => rw [eq_retold_of_sameButOutputs hsame, exec_retold, hu, mapNext_next]
  exact ⟨u.after s'.trace, u.trace, h', sameButOutputs_refl u, rfl, rfl, rfl⟩

/-- The pure operations write no field but the result ports and the trace (section 3 of 20_memory.md). -/
theorem sameButOutputs_of_pure {i : Instr} {s t : State}
    (hi : i.opcode ∈ [Opcode.nop, .available, .crc8, .crc8Step, .encode, .txqCount, .txqPeek, .rxqCount, .rxqPeek])
    (h : exec i s = .next t) : sameButOutputs s t := by
  cases i with
  | nop | available | crc8 _ _ | crc8Step _ _ | txqCount | rxqCount => cases h; exact sameButOutputs_refl s
  | encode id plen payload =>
    simp only [exec, execEncode] at h
    split at h <;> (cases h; exact sameButOutputs_refl s)
  | txqPeek | rxqPeek =>
    obtain ⟨x, -, h⟩ := bindNext_eq_next.1 h
    cases h; exact sameButOutputs_refl s
  | _ => simp [Instr.opcode] at hi

/-- Settles O57: a pure operation writes outputs only, and outputs are never read, so the second issue is the first. -/
theorem pureOperationsAreIdempotent : Obligations.PureOperationsAreIdempotent := by
  intro i s t hi h
  have hsame := sameButOutputs_of_pure hi h
  obtain ⟨u, -, hu, hsame', -, -, hout⟩ := exec_of_sameButOutputs hsame h
  exact ⟨hsame, u, hu, hsame', hout⟩

/-- An input taken in a state with other outputs makes the same change and adds the same events; a command answers the
same results. -/
theorem runInput_of_sameButOutputs {inp : Input} {s s' t : State} (hsame : sameButOutputs s s')
    (h : runInput inp s = .next t) :
    ∃ t' added, runInput inp s' = .next t' ∧ sameButOutputs t t' ∧ t.trace = s.trace ++ added ∧
      t'.trace = s'.trace ++ added ∧ ∀ c, inp = .command c → t'.out = t.out := by
  have ⟨hcfg, hrx, htxq, hrxq, hchIn, hchOut, hclock, hdrawn, hinputs⟩ := hsame
  cases inp with
  | command c =>
    cases hd : decode s.cfg c with
    | ok i =>
      rw [runInput, runCommand_ok hd] at h
      obtain ⟨t', added, h', hsame', htrace, htrace', hout⟩ := exec_of_sameButOutputs hsame h
      exact ⟨t', added, (runCommand_ok (hcfg ▸ hd)).trans h', hsame', htrace, htrace', fun _ _ => hout⟩
    | error r =>
      rw [runInput, runCommand_error hd] at h
      cases h
      refine ⟨_, [.illegalCmd], runCommand_error (hcfg ▸ hd), hsame, rfl, rfl, fun _ _ => ?_⟩
      exact congrArg (fun cfg => { quietResults cfg with status := 1#1 }) hcfg.symm
  | reset =>
    cases h
    refine ⟨_, [], rfl, ?_, (List.append_nil _).symm, (List.append_nil _).symm, nofun⟩
    simp [sameButOutputs, resetBlock, hcfg, hchIn, hchOut, hclock, hdrawn, hinputs]
  | channel bytes =>
    cases h
    refine ⟨_, [], rfl, ?_, (List.append_nil _).symm, (List.append_nil _).symm, nofun⟩
    exact ⟨hcfg, hrx, htxq, hrxq, congrArg (· ++ bytes) hchIn, hchOut, hclock, hdrawn, hinputs⟩
  | clock samples =>
    cases h
    refine ⟨_, [], rfl, ?_, (List.append_nil _).symm, (List.append_nil _).symm, nofun⟩
    exact ⟨hcfg, hrx, htxq, hrxq, hchIn, hchOut, congrArg (· ++ samples) hclock, hdrawn, hinputs⟩

/-- A step from a state with other outputs makes the same change and adds the same events; a command answers the same
results. -/
theorem step_of_sameButOutputs {s s' t : State} (hsame : sameButOutputs s s') (h : step s = .next t) :
    ∃ t' added, step s' = .next t' ∧ sameButOutputs t t' ∧ t.trace = s.trace ++ added ∧ t'.trace = s'.trace ++ added ∧
      ∀ c rest, s.inputs = .command c :: rest → t'.out = t.out := by
  have ⟨hcfg, hrx, htxq, hrxq, hchIn, hchOut, hclock, hdrawn, hinputs⟩ := hsame
  have hlegal := legal_of_step_eq_next h
  have hlegal' : s'.cfg.Legal := hcfg ▸ hlegal
  rcases step_cases hlegal with ⟨hnil, hstep⟩ | ⟨inp, rest, hcons, hstep⟩
  · cases hstep.symm.trans h
    have hidle : step s' = .next s' := (step_of_legal hlegal').trans (runNextInput_nil (hinputs ▸ hnil))
    refine ⟨s', [], hidle, hsame, (List.append_nil _).symm, (List.append_nil _).symm, fun c rest hcons => ?_⟩
    cases hnil.symm.trans hcons
  · have hrest : sameButOutputs (s.withInputs rest) (s'.withInputs rest) :=
      ⟨hcfg, hrx, htxq, hrxq, hchIn, hchOut, hclock, hdrawn, rfl⟩
    obtain ⟨t', added, hrun, hsame', htrace, htrace', hout⟩ := runInput_of_sameButOutputs hrest (hstep.symm.trans h)
    refine ⟨t', added, (step_of_inputs hlegal' (hinputs ▸ hcons)).trans hrun, hsame', htrace, htrace', ?_⟩
    intro c rest' hcons'
    exact hout c (List.cons.inj (hcons.symm.trans hcons')).1

/-- Settles O58. -/
theorem resultsAndTraceAreNeverRead : Obligations.ResultsAndTraceAreNeverRead :=
  fun s _ _ _ h => step_of_sameButOutputs (sameButOutputs_refl s) h

end Sys2Proof.Machine

/-! What a presented byte, a SERVICE and a step add to the trace: never the length guard's event (rule R157), and at
most one delivery for every five bytes (section 2 of 70_reset_and_hazards.md). -/

namespace Sys2Proof.Machine

open Sys2Proof.Spec

/-! ## The bytes a delivery costs -/

/-- The bytes counted so far of the frame in progress, up to the four before the shortest valid frame's End. -/
def framed (s : State) : Nat := min s.rx.bc.toNat 4

/-- The trace grew by events that are not the length guard's, and each delivery among them cost five of the bytes
framed before or of `n` more bytes. -/
def Charged (n : Nat) (s t : State) : Prop :=
  ∃ evs, t.trace = s.trace ++ evs ∧ TraceEvent.dropGuardLen ∉ evs ∧ 5 * deliveries evs + framed t ≤ n + framed s

/-- No event. -/
theorem Charged.of_trace_eq {n : Nat} {s t : State} (h : t.trace = s.trace) (hframed : framed t ≤ n + framed s) :
    Charged n s t := ⟨[], by simp [h], by simp, by simpa [deliveries] using hframed⟩

/-- One event that delivers nothing. -/
theorem Charged.of_event {n : Nat} {s t : State} {e : TraceEvent} (h : t.trace = s.trace ++ [e])
    (hguard : e ≠ .dropGuardLen) (hok : e ≠ .frameOk) (hframed : framed t ≤ n + framed s) : Charged n s t :=
  ⟨[e], h, by simpa using hguard.symm, by simpa [deliveries, hok] using hframed⟩

theorem Charged.trans {m n : Nat} {s t u : State} (h : Charged m s t) (h' : Charged n t u) : Charged (m + n) s u := by
  obtain ⟨evs, htrace, hguard, hcost⟩ := h
  obtain ⟨evs', htrace', hguard', hcost'⟩ := h'
  refine ⟨evs ++ evs', by rw [htrace', htrace, List.append_assoc], by simp [hguard, hguard'], ?_⟩
  simp only [deliveries, List.countP_append] at *
  omega

theorem Charged.mono {m n : Nat} {s t : State} (h : Charged m s t) (hmn : m ≤ n) : Charged n s t := by
  obtain ⟨evs, htrace, hguard, hcost⟩ := h
  exact ⟨evs, htrace, hguard, by omega⟩

/-- Back in Idle no byte is framed. -/
theorem framed_of_idle {s : State} (h : s.rx.bc = 0#8) : framed s = 0 := by simp [framed, h]

/-- Counting a byte frames at most one more. -/
theorem framed_le_of_counted {s t : State} (h : t.rx.bc = s.rx.bc + 1#8) : framed t ≤ 1 + framed s := by
  have hle : (s.rx.bc + 1#8).toNat ≤ s.rx.bc.toNat + 1 := by
    rw [BitVec.toNat_add]; exact Nat.mod_le _ _
  simp only [framed, h]
  omega

section
variable {s t : State}

/-- The guard delivers nothing (rules R142, R157). -/
theorem rxGuard_charged (h : s.Inv) (now : Time) : Charged 0 s (rxGuard now s) := by
  rcases rxGuard_trace h now with he | he
  · rw [he]; exact .of_trace_eq rfl (by omega)
  · rw [he]; exact .of_event rfl (by decide) (by decide) (by rw [framed_of_idle rfl]; omega)

/-- The Idle rule delivers nothing (rule R144). -/
theorem idleRule_charged (b : Byte) (now : Time) (hbc : s.rx.bc = 0#8) : Charged 1 s (idleRule b now s) := by
  unfold idleRule
  split
  · exact .of_trace_eq rfl (by simp [framed, hbc])
  · exact .of_event rfl (by decide) (by decide) (by simp [framed])

/-- A store delivers nothing (rules R151 to R153). -/
theorem storeByte_charged (h : s.Inv) {b : Byte} (he : storeByte b s = .next t) : Charged 1 s t := by
  rcases storeByte_spec h b with ⟨-, hstore⟩ | ⟨-, hstore⟩
  · cases hstore.symm.trans he
    exact .of_trace_eq rfl (framed_le_of_counted rfl)
  · cases hstore.symm.trans he
    exact .of_event rfl (by decide) (by decide) (by rw [framed_of_idle rfl]; omega)

/-- A delivery ends a frame of at least four bytes before its End: Start, length, id and the CRC (rules R148, R149). -/
theorem endRule_charged (h : s.Inv) (hbc : 3 ≤ s.rx.bc.toNat) (he : endRule s = .next t) : Charged 1 s t := by
  rcases endRule_spec h hbc with ⟨hvalid, q, -, -, -, hend⟩ | ⟨-, hend⟩
  · cases hend.symm.trans he
    have hpidx : 1 ≤ s.rx.pidx.toNat := ((frameValid_iff s).1 hvalid).1
    obtain ⟨-, -, -, hcounted⟩ := h.rx_wf
    obtain ⟨hstored, -⟩ := hcounted (by omega)
    have hframed : framed s = 4 := by simp only [framed]; omega
    refine ⟨_, rfl, ?_, ?_⟩
    · unfold evictEvent; split <;> decide
    · have hone : deliveries ([.frameOk] ++ evictEvent s.cfg.nRx s.rxq) = 1 := by
        unfold evictEvent; split <;> decide
      rw [hone, hframed, framed_of_idle rfl]
  · cases hend.symm.trans he
    refine .of_event rfl ?_ ?_ (by rw [framed_of_idle rfl]; omega) <;> (split <;> [skip; split]) <;> decide

/-- Classifying a byte costs at most that byte (rule R155). -/
theorem classify_charged (h : s.Inv) {b : Byte} {now : Time} (he : classify b now s = .next t) : Charged 1 s t := by
  rcases bc_cases s.rx.bc with hbc | hbc | hbc | hbc
  · cases (classify_of_idle hbc).symm.trans he
    exact idleRule_charged b now hbc
  · cases (classify_of_length hbc).symm.trans he
    exact .of_trace_eq rfl (framed_le_of_counted (by rw [hbc]; rfl))
  · cases (classify_of_id hbc).symm.trans he
    exact .of_trace_eq rfl (framed_le_of_counted (by rw [hbc]; rfl))
  · rw [classify_of_payload hbc] at he
    split at he
    · exact storeByte_charged h he
    split at he
    · cases he; exact .of_trace_eq rfl (framed_le_of_counted rfl)
    split at he
    · exact endRule_charged h hbc he
    · exact storeByte_charged h he

/-- A presented byte costs at most that byte (rule R155). -/
theorem rxStep_charged (h : s.Inv) {b : Byte} {now : Time} (he : rxStep b now s = .next t) : Charged 1 s t :=
  ((rxGuard_charged h now).trans (classify_charged (h.rxGuard now) he)).mono (Nat.le_of_eq (Nat.zero_add 1))

/-- The read loop costs at most its budget (rule R215). -/
theorem readLoop_charged (n : Nat) (h : s.Inv) (he : readLoop n s = .next t) : Charged n s t := by
  induction n generalizing s with
  | zero => cases he; exact .of_trace_eq rfl (by omega)
  | succ n ih =>
    unfold readLoop at he
    split at he
    · cases he; exact .of_trace_eq rfl (by omega)
    next b rest hchIn =>
      obtain ⟨u, hu, he⟩ := bindNext_eq_next.1 he
      have hinv := h.sampleNow rest
      obtain ⟨-, samples, k, hsample⟩ := sampleNow_spec (s.withChIn rest)
      have hread : Charged 1 s u := by
        have hcharged := rxStep_charged hinv hu
        rwa [hsample] at hcharged
      obtain ⟨u', hu', huinv⟩ := rxStep_inv hinv b (sampleNow_lt (s.withChIn rest))
      cases hu.symm.trans hu'
      exact (hread.trans (ih huinv he)).mono (by omega)

/-- The send step emits nothing (rule R216). -/
theorem sendStep_trace (h : s.Inv) (he : sendStep s = .next t) : t.trace = s.trace := by
  by_cases hc : s.txq.count = 0
  · cases (sendStep_empty hc).symm.trans he; rfl
  · obtain ⟨f, hf, -⟩ := h.txq_wf.front_slot
    cases (sendStep_some hc hf).symm.trans he; rfl

/-- SERVICE adds what its read loop adds (rule R214). -/
theorem execService_events (h : s.Inv) (he : exec .service s = .next t) :
    ∃ evs, t.trace = s.trace ++ evs ∧ TraceEvent.dropGuardLen ∉ evs ∧ 5 * deliveries evs ≤ s.cfg.bpt + 4 := by
  obtain ⟨u, v, hread, hsend, rfl⟩ := execService_next he
  obtain ⟨u', hu', huinv⟩ := readLoop_inv s.cfg.bpt h
  cases hread.symm.trans hu'
  obtain ⟨evs, htrace, hguard, hcost⟩ := readLoop_charged s.cfg.bpt h hread
  have hframed : framed s ≤ 4 := Nat.min_le_right _ _
  exact ⟨evs, (sendStep_trace huinv hsend).trans htrace, hguard, by omega⟩

end

/-- Settles O52: four bytes may be framed before the SERVICE, and each delivery costs five. -/
theorem serviceDeliveriesAreBounded : Obligations.ServiceDeliveriesAreBounded := by
  intro s t hinv h
  obtain ⟨evs, htrace, -, hcost⟩ := execService_events hinv h
  obtain ⟨⟨-, -, -, hbpt, -⟩, -⟩ := hinv
  exact ⟨evs, htrace, by omega⟩

/-! ## A step -/

/-- No instruction reports the length guard (rule R157). -/
theorem exec_adds {i : Instr} {s t : State} (hinv : s.Inv) (h : exec i s = .next t) : AddsNoGuardLen s t := by
  by_cases hservice : i = .service
  · subst hservice
    obtain ⟨evs, htrace, hguard, -⟩ := execService_events hinv h
    exact ⟨evs, htrace, hguard⟩
  by_cases hrx : ∃ b now, i = .rxStep b now
  · obtain ⟨b, now, rfl⟩ := hrx
    obtain ⟨u, -, hu, rfl⟩ := execRxStep_next h
    obtain ⟨evs, htrace, hguard, -⟩ := rxStep_charged hinv hu
    exact ⟨evs, htrace, hguard⟩
  exact (exec_kept h hservice fun b now hi => hrx ⟨b, now, hi⟩).events

/-- No input makes the length guard report. -/
theorem runInput_adds {inp : Input} {s t : State} (hinv : s.Inv) (h : runInput inp s = .next t) :
    AddsNoGuardLen s t := by
  cases inp with
  | command c =>
    rcases runCommand_cases c s with ⟨i, -, hrun⟩ | hrun
    · exact exec_adds hinv (hrun.symm.trans h)
    · cases hrun.symm.trans h; exact ⟨[.illegalCmd], rfl, by decide⟩
  | reset | channel _ | clock _ => cases h; exact .of_eq rfl

/-- Settles O38. -/
theorem lengthGuardNeverTrips : Obligations.LengthGuardNeverTrips := by
  intro s t hinv h
  rcases step_cases hinv.1 with ⟨-, hstep⟩ | ⟨inp, rest, -, hstep⟩
  · cases hstep.symm.trans h; exact AddsNoGuardLen.of_eq rfl
  · have hadds := runInput_adds (s := s.withInputs rest) hinv (hstep.symm.trans h)
    exact hadds

end Sys2Proof.Machine

/-! The deframer over whole frames (sections 2 and 4 of 42_deframer.md). A frame in progress is described by what its
parse state holds (`Deframer.Receiving`): the header sets it up with an empty body, each stuffed byte adds one byte to
the body, and the End byte gives the verdict. -/

namespace Sys2Proof.Machine

open Sys2Proof.Spec

/-! ## A frame in progress -/

/-- The parse state between two bytes of a frame begun at `t0` with header `len`, `id`, whose body so far is `x`. -/
structure Deframer.Receiving (cfg : Config) (len id : Byte) (t0 : Time) (x : List Byte) (d : Deframer) : Prop where
  wf : d.Wf cfg
  bc : d.bc.toNat = 3 + (stuffed cfg x).length
  dlen : d.dlen = len
  did : d.did = id
  esc : d.esc = false
  pidx : d.pidx.toNat = x.length
  stored : d.pbuf.take x.length = x
  tstart : cfg.clockPresent = true → d.tstart = t0

/-- The parse state after a store (rules R151, R152). -/
def Deframer.store (y : Byte) (d : Deframer) : Deframer :=
  { d with pbuf := d.pbuf.set d.pidx.toNat y, pidx := d.pidx + 1#8, esc := false, bc := d.bc + 1#8 }

section
variable {cfg : Config} {s : State} {d : Deframer} {len id y : Byte} {t0 t : Time} {x : List Byte}

theorem Deframer.Receiving.payload (h : d.Receiving cfg len id t0 x) : 3 ≤ d.bc.toNat := by rw [h.bc]; omega

/-- A byte in time does not trip the guard (rule R142). -/
theorem guardHolds_of_onTime (hinv : (s.withRx d).Inv) (hstart : s.cfg.clockPresent = true → d.tstart = t0)
    (ht : onTime s.cfg t0 t) : guardHolds (s.withRx d).done t :=
  ⟨hinv.bc_le, fun hclock => by rw [State.done_rx, State.withRx_rx, hstart hclock]; exact ht hclock⟩

/-- A byte that is classified as data or a literal, with room for it, is stored within the invariant (rules R151,
R152). -/
theorem exec_rxStep_store (hinv : (s.withRx d).Inv) (hbc : 3 ≤ d.bc.toNat) (hguard : guardHolds (s.withRx d).done t)
    (hrule : classify y t (s.withRx d).done = storeByte y (s.withRx d).done) (hroom : d.pidx.toNat < s.cfg.mp + 1) :
    exec (.rxStep y t) (s.withRx d).done = .next (s.withRx (d.store y)).done ∧ (s.withRx (d.store y)).Inv := by
  have hexec := exec_rxStep_of_store (s := (s.withRx d).done) hinv hguard hrule
  obtain ⟨u, hu, huinv⟩ := storeByte_inv (s := (s.withRx d).done) hinv hbc y
  rcases storeByte_spec (s := (s.withRx d).done) hinv y with ⟨-, hstore⟩ | ⟨hfull, -⟩
  · cases hstore.symm.trans hu
    exact ⟨hexec.trans (congrArg Host.Outcome.next (if_pos hroom)), huinv⟩
  · exact absurd hroom hfull

/-- An escaped byte is stored like an unescaped one, and counted with its escape (rules R147, R152). -/
theorem exec_rxStep_escape (hinv : (s.withRx d).Inv) (hbc : 3 ≤ d.bc.toNat) (hguard : guardHolds (s.withRx d).done t)
    (hesc : d.esc = false) :
    exec (.rxStep s.cfg.escapeByte t) (s.withRx d).done = .next (s.withRx d.escapePending).done ∧
      (s.withRx d.escapePending).Inv :=
  ⟨payloadEscapeIsCountedNotStored (s.withRx d).done t hbc hguard hesc,
    escapeRule_inv (s := (s.withRx d).done) hinv hbc hesc⟩

/-- A stored byte ends the body so far (rules R151, R152). The parse state `d'` before the store is that of the body `x`
with `k` escapes counted since. -/
theorem Deframer.Receiving.store {d' : Deframer} {k : Nat} (h : d.Receiving s.cfg len id t0 x)
    (hinv : (s.withRx d').Inv)
    (hbc : d'.bc.toNat = d.bc.toNat + k) (hsame : d' = { d with bc := d'.bc, esc := d'.esc })
    (hroom : x.length < s.cfg.mp + 1) (hstore : (s.withRx (d'.store y)).Inv)
    (hlen : (stuffed s.cfg (x ++ [y])).length = (stuffed s.cfg x).length + k + 1) :
    (d'.store y).Receiving s.cfg len id t0 (x ++ [y]) := by
  have hpidx : d'.pidx = d.pidx := by rw [hsame]
  have hpbuf : d'.pbuf = d.pbuf := by rw [hsame]
  have hpayload := h.payload
  obtain ⟨hcount, hindex, htake⟩ := stored_byte (s := s.withRx d') hinv (show 3 ≤ d'.bc.toNat by omega)
    (show d'.pidx.toNat < s.cfg.mp + 1 by rw [hpidx, h.pidx]; exact hroom) y
  simp only [State.withRx_rx, hpidx, hpbuf, h.pidx, h.stored] at hcount hindex htake
  refine ⟨hstore.2.1, ?_, ?_, ?_, rfl, ?_, ?_, fun hclock => ?_⟩
  · rw [hlen]
    exact hcount.trans (by rw [hbc, h.bc]; omega)
  · rw [hsame]; exact h.dlen
  · rw [hsame]; exact h.did
  · rw [List.length_append, List.length_singleton, ← hindex, ← hpidx]; rfl
  · rw [List.length_append, List.length_singleton]
    simp only [Deframer.store, hpidx, hpbuf, h.pidx]
    exact htake
  · rw [hsame]; exact h.tstart hclock

end

/-! ## The body -/

section
variable {s : State} {d : Deframer} {len id y : Byte} {t0 : Time} {x : List Byte} {timed : List (Byte × Time)}

theorem stuffed_append (cfg : Config) (x y : List Byte) : stuffed cfg (x ++ y) = stuffed cfg x ++ stuffed cfg y := by
  simp [stuffed]

/-- Bytes with their times, the first of them known. -/
theorem timed_eq_cons {b : Byte} {bs : List Byte} (h : timed.map Prod.fst = b :: bs) :
    ∃ t rest, timed = (b, t) :: rest ∧ rest.map Prod.fst = bs := by
  obtain ⟨⟨_, t⟩, rest, rfl, rfl, hrest⟩ := List.map_eq_cons_iff.1 h
  exact ⟨t, rest, rfl, hrest⟩

/-- Bytes with their times, one of them. -/
theorem timed_eq_singleton {b : Byte} (h : timed.map Prod.fst = [b]) : ∃ t, timed = [(b, t)] := by
  obtain ⟨t, rest, rfl, hrest⟩ := timed_eq_cons h
  exact ⟨t, by rw [List.map_eq_nil_iff.1 hrest]⟩

/-- A byte outside RES travels as itself, a reserved one behind an EscapeByte (rule R82). -/
theorem stuffed_singleton (cfg : Config) (y : Byte) :
    stuffed cfg [y] = if cfg.reserved y then [cfg.escapeByte, y] else [y] := by
  rw [stuffed_cons]; simp [stuffed]

/-- EndByte is reserved (rule R9). -/
theorem ne_endByte_of_not_reserved {cfg : Config} {y : Byte} (h : ¬ cfg.reserved y = true) : y ≠ cfg.endByte := by
  rintro rfl; simp [Config.reserved] at h

/-- The stuffed form of one byte, presented in time with room for it, adds that byte to the body (rules R147, R151,
R152). -/
theorem present_stuffed_byte (hinv : s.Inv) (h : d.Receiving s.cfg len id t0 x) (hroom : x.length < s.cfg.mp + 1)
    (hbytes : timed.map Prod.fst = stuffed s.cfg [y]) (htime : ∀ q ∈ timed, onTime s.cfg t0 q.2) :
    ∃ d', presentBytes timed (s.withRx d).done = .next (s.withRx d').done ∧
      d'.Receiving s.cfg len id t0 (x ++ [y]) := by
  have hd : (s.withRx d).Inv := hinv.withRx h.wf
  have hfits : d.pidx.toNat < s.cfg.mp + 1 := h.pidx.symm ▸ hroom
  have hlength := congrArg List.length (stuffed_append s.cfg x [y])
  rw [List.length_append, stuffed_singleton] at hlength
  rw [stuffed_singleton] at hbytes
  split at hbytes
  next hres =>
    rw [if_pos hres] at hlength
    obtain ⟨t, rest, rfl, hrest⟩ := timed_eq_cons hbytes
    obtain ⟨t', rfl⟩ := timed_eq_singleton hrest
    obtain ⟨hescape, hpending⟩ := exec_rxStep_escape hd h.payload 
      (guardHolds_of_onTime hd h.tstart (htime (s.cfg.escapeByte, t) (by simp))) h.esc
    have hcounted : d.escapePending.bc.toNat = d.bc.toNat + 1 := hd.bc_add_one
    have hpayload : 3 ≤ d.escapePending.bc.toNat := by have := h.payload; omega
    have hrule : classify y t' (s.withRx d.escapePending).done = storeByte y (s.withRx d.escapePending).done :=
      (classify_of_payload hpayload).trans (if_pos rfl)
    obtain ⟨hliteral, hstored⟩ := exec_rxStep_store hpending hpayload
      (guardHolds_of_onTime hpending h.tstart (htime (y, t') (by simp))) hrule hfits
    refine ⟨_, ?_, h.store hpending hcounted rfl hroom hstored hlength⟩
    simp only [presentBytes, hescape, hliteral, bindNext_next]
  next hres =>
    rw [if_neg hres] at hlength
    obtain ⟨t, rfl⟩ := timed_eq_singleton hbytes
    have hdata : classify y t (s.withRx d).done = storeByte y (s.withRx d).done := by
      simp [classify_of_payload (s := (s.withRx d).done) h.payload, h.esc, ne_escapeByte_of_not_reserved hres,
        ne_endByte_of_not_reserved hres]
    obtain ⟨hstore, hstored⟩ := exec_rxStep_store hd h.payload
      (guardHolds_of_onTime hd h.tstart (htime (y, t) (by simp))) hdata hfits
    refine ⟨_, ?_, h.store (k := 0) hd rfl rfl hroom hstored hlength⟩
    simp only [presentBytes, hstore, bindNext_next]

/-- A stuffed body presented in time, with room for it, is added to the body so far. -/
theorem present_stuffed {ys : List Byte} (hinv : s.Inv) (h : d.Receiving s.cfg len id t0 x)
    (hroom : x.length + ys.length ≤ s.cfg.mp + 1) (hbytes : timed.map Prod.fst = stuffed s.cfg ys)
    (htime : ∀ q ∈ timed, onTime s.cfg t0 q.2) :
    ∃ d', presentBytes timed (s.withRx d).done = .next (s.withRx d').done ∧ d'.Receiving s.cfg len id t0 (x ++ ys) := by
  induction ys generalizing x d timed with
  | nil =>
    obtain rfl : timed = [] := List.map_eq_nil_iff.1 hbytes
    exact ⟨d, rfl, by rwa [List.append_nil]⟩
  | cons y ys ih =>
    rw [List.length_cons] at hroom
    rw [← List.singleton_append, stuffed_append] at hbytes
    obtain ⟨first, rest, rfl, hfirst, hrest⟩ := List.map_eq_append_iff.1 hbytes
    obtain ⟨htime₁, htime₂⟩ := List.forall_mem_append.1 htime
    obtain ⟨d₁, hpresent₁, h₁⟩ := present_stuffed_byte hinv h (by omega) hfirst htime₁
    obtain ⟨d₂, hpresent₂, h₂⟩ := ih h₁ (by simp only [List.length_append, List.length_singleton]; omega) hrest htime₂
    refine ⟨d₂, ?_, by rwa [List.append_assoc, List.singleton_append] at h₂⟩
    rw [presentBytes_append, hpresent₁, bindNext_next, hpresent₂]

end

/-! ## The header -/

section
variable {s : State} {len id : Byte} {t0 t1 t2 : Time}

/-- The parse state after a Start, a length byte and an id byte (rules R144 to R146). -/
def headed (cfg : Config) (len id : Byte) (t0 : Time) (d : Deframer) : Deframer :=
  { begun cfg t0 d with dlen := len, did := id, bc := 3#8 }

/-- The header of a frame begins an empty body (rules R144 to R146). -/
theorem present_header (hinv : s.Inv) (hidle : s.rx.bc = 0#8) (ht0 : t0 < 2 ^ s.cfg.tw) :
    presentBytes [(s.cfg.startByte, t0), (len, t1), (id, t2)] s = .next (s.withRx (headed s.cfg len id t0 s.rx)).done ∧
      (headed s.cfg len id t0 s.rx).Receiving s.cfg len id t0 [] := by
  have hpresent : presentBytes [(s.cfg.startByte, t0), (len, t1), (id, t2)] s =
      .next (s.withRx (headed s.cfg len id t0 s.rx)).done := by
    simp only [presentBytes]
    rw [idleByteBeginsAFrameOrIsNoise s _ t0 hidle, if_pos rfl, bindNext_next, (headerBytesAreStored _ len t1).1 rfl,
      bindNext_next, (headerBytesAreStored _ id t2).2 rfl, bindNext_next]
    rfl
  have hstart : (headed s.cfg len id t0 s.rx).tstart < 2 ^ s.cfg.tw := by
    simp only [headed, begun]
    split
    · exact ht0
    · exact Nat.two_pow_pos _
  refine ⟨hpresent, ⟨⟨hinv.rx_wf.1, hstart, ?_, ?_⟩, rfl, rfl, rfl, rfl, rfl, rfl, ?_⟩⟩
  · simp [headed, Config.maxFrameLen]
  · simp [headed, begun]
  · intro hclock; simp [headed, begun, hclock]

end

/-! ## The End byte -/

/-- The frames that are delivered: a CRC byte, a length byte that counts the frame, and the right CRC (rule R149). -/
def Accepts (cfg : Config) (len : Byte) (x : List Byte) : Prop :=
  x ≠ [] ∧ len.toNat = 4 + (stuffed cfg x).length ∧ x.getLast? = some (crcOf x.dropLast)

/-- The event of a frame that is not delivered (rule R235 (b)). -/
def dropEvent (cfg : Config) (len : Byte) (x : List Byte) : TraceEvent :=
  if x = [] then .dropNoCrc else if len.toNat ≠ 4 + (stuffed cfg x).length then .dropLen else .dropCrc

section
variable {s : State} {d : Deframer} {len id : Byte} {t0 t : Time} {x : List Byte}

/-- The bytes before the CRC byte, in the buffer and in the body. -/
theorem Deframer.Receiving.take_payload {cfg : Config} (h : d.Receiving cfg len id t0 x) :
    d.pbuf.take (d.pidx.toNat - 1) = x.dropLast := by
  calc d.pbuf.take (d.pidx.toNat - 1)
      = (d.pbuf.take x.length).take (x.length - 1) := by
        rw [h.pidx, List.take_take, Nat.min_eq_left (Nat.sub_le _ _)]
    _ = x.dropLast := by rw [h.stored, List.dropLast_eq_take]

/-- The last byte of a body that has one, in the buffer (rule R149). -/
theorem Deframer.Receiving.last_stored {cfg : Config} (h : d.Receiving cfg len id t0 x) (hne : x ≠ []) :
    d.pbuf[x.length - 1]? = x.getLast? := by
  have hlt : x.length - 1 < x.length := Nat.sub_lt (List.length_pos_iff.2 hne) Nat.one_pos
  calc d.pbuf[x.length - 1]?
      = (d.pbuf.take x.length)[x.length - 1]? := (List.getElem?_take_of_lt hlt).symm
    _ = x.getLast? := by rw [h.stored, List.getLast?_eq_getElem?]

/-- The length byte is compared with the frame the bytes count, End included (rule R149 (a)). -/
theorem Deframer.Receiving.length_iff {cfg : Config} (h : d.Receiving cfg len id t0 x) :
    d.bc.toNat + 1 = d.dlen.toNat ↔ len.toNat = 4 + (stuffed cfg x).length := by
  rw [h.bc, h.dlen]; omega

/-- The deframer's validity check accepts what the rules accept (rule R149). -/
theorem Deframer.Receiving.valid_iff (h : d.Receiving s.cfg len id t0 x) :
    frameValid (s.withRx d).done = true ↔ Accepts s.cfg len x := by
  rw [frameValid_iff]
  simp only [State.done_rx, State.withRx_rx, h.length_iff, h.take_payload, Accepts]
  rw [h.pidx, Nat.one_le_iff_ne_zero, ne_eq, List.length_eq_zero_iff]
  refine and_congr_right fun hne => ?_
  rw [h.last_stored hne]

/-- The drop event the deframer chooses is the rules' (rule R235 (b)). -/
theorem Deframer.Receiving.dropEvent_eq {cfg : Config} (h : d.Receiving cfg len id t0 x) :
    (if d.pidx.toNat < 1 then TraceEvent.dropNoCrc
      else if d.bc.toNat + 1 ≠ d.dlen.toNat then .dropLen else .dropCrc) = dropEvent cfg len x := by
  simp only [dropEvent, h.pidx, Nat.lt_one_iff, List.length_eq_zero_iff, ne_eq, h.length_iff]

/-- The End byte in time is handled by the end rule (rule R148). -/
theorem exec_end (hinv : s.Inv) (h : d.Receiving s.cfg len id t0 x) (ht : onTime s.cfg t0 t) {u : State}
    (hend : endRule (s.withRx d).done = .next u) :
    exec (.rxStep s.cfg.endByte t) (s.withRx d).done = .next u.done := by
  have hguard := guardHolds_of_onTime (hinv.withRx h.wf) h.tstart ht
  have hrule := classify_of_end (s := (s.withRx d).done) (t := t) hinv.1 h.payload h.esc
  exact exec_rxStep_of_classify (guardTrips_of_guardHolds hguard) (hrule.trans hend)

/-- The End byte of an accepted frame delivers its packet (rules R148 to R150). -/
theorem exec_end_of_accepts (hinv : s.Inv) (h : d.Receiving s.cfg len id t0 x) (ht : onTime s.cfg t0 t)
    (hacc : Accepts s.cfg len x) :
    ∃ q, q.contents s.cfg.nRx = delivered s.cfg (packetOf s.cfg id x.dropLast) s.rxq ∧
      exec (.rxStep s.cfg.endByte t) (s.withRx d).done =
        .next (((s.withRx d.idle).withRxq q).emits ([.frameOk] ++ evictEvent s.cfg.nRx s.rxq)).done := by
  have hd : (s.withRx d).done.Inv := hinv.withRx h.wf
  rcases endRule_spec hd h.payload with ⟨-, q, -, -, hcontents, hend⟩ | ⟨hinvalid, -⟩
  · have hpidx : 1 ≤ d.pidx.toNat := ((frameValid_iff _).1 (h.valid_iff.2 hacc)).1
    have hpacket : receivedPacket (s.withRx d).done = packetOf s.cfg id x.dropLast := by
      rw [receivedPacket_eq hd (show 1 ≤ d.bc.toNat by have := h.payload; omega) hpidx]
      simp only [State.done_rx, State.withRx_rx, State.done_cfg, State.withRx_cfg, h.did, h.take_payload]
    rw [hpacket] at hcontents
    exact ⟨q, hcontents, (exec_end hinv h ht hend :)⟩
  · exact absurd (h.valid_iff.2 hacc) (by rw [hinvalid]; decide)

/-- The End byte of another frame drops it (rules R148, R149). -/
theorem exec_end_of_not_accepts (hinv : s.Inv) (h : d.Receiving s.cfg len id t0 x) (ht : onTime s.cfg t0 t)
    (hacc : ¬ Accepts s.cfg len x) :
    exec (.rxStep s.cfg.endByte t) (s.withRx d).done =
      .next ((s.withRx d.idle).emit (dropEvent s.cfg len x)).done := by
  have hd : (s.withRx d).done.Inv := hinv.withRx h.wf
  rcases endRule_spec hd h.payload with ⟨hvalid, -⟩ | ⟨-, hend⟩
  · exact absurd (h.valid_iff.1 hvalid) hacc
  · have hexec := exec_end hinv h ht hend
    exact hexec.trans (congrArg (fun e => Host.Outcome.next ((s.withRx d.idle).emit e).done) h.dropEvent_eq)

end

/-! ## Whole frames -/

section
variable {s : State} {len id : Byte} {x : List Byte} {timed : List (Byte × Time)} {t0 : Time}

/-- A frame presented in time: its three header bytes, its stuffed body and its End, with the times each part needs. -/
theorem timed_wire_cases {cfg : Config} (hbytes : timed.map Prod.fst = wire cfg len id x)
    (htime : inTime cfg timed t0) :
    ∃ t1 t2 body te, timed = [(cfg.startByte, t0), (len, t1), (id, t2)] ++ body ++ [(cfg.endByte, te)] ∧
      body.map Prod.fst = stuffed cfg x ∧ t0 < 2 ^ cfg.tw ∧ (∀ q ∈ body, onTime cfg t0 q.2) ∧ onTime cfg t0 te := by
  obtain ⟨front, tail, rfl, hfront, htail⟩ := List.map_eq_append_iff.1 hbytes
  obtain ⟨header, body, rfl, hheader, hbody⟩ := List.map_eq_append_iff.1 hfront
  obtain ⟨ta, rest, rfl, hrest⟩ := timed_eq_cons hheader
  obtain ⟨t1, rest, rfl, hid⟩ := timed_eq_cons hrest
  obtain ⟨t2, rfl⟩ := timed_eq_singleton hid
  obtain ⟨te, rfl⟩ := timed_eq_singleton htail
  obtain ⟨hwidth, hfirst, hontime⟩ := htime
  obtain rfl : ta = t0 := by simpa using hfirst
  have hafter : ∀ q ∈ body ++ [(cfg.endByte, te)], onTime cfg ta q.2 := by simpa using hontime
  obtain ⟨hbodytime, hendtime⟩ := List.forall_mem_append.1 hafter
  exact ⟨t1, t2, body, te, rfl, hbody, hwidth (cfg.startByte, ta) (by simp), hbodytime,
    hendtime (cfg.endByte, te) (by simp)⟩

/-- A frame presented in time from Idle reaches its End byte with its body received. -/
theorem present_wire (hinv : s.Inv) (hidle : s.rx.bc = 0#8) (hx : x.length ≤ s.cfg.mp + 1)
    (hbytes : timed.map Prod.fst = wire s.cfg len id x) (htime : inTime s.cfg timed t0) :
    ∃ d te, d.Receiving s.cfg len id t0 x ∧ onTime s.cfg t0 te ∧
      presentBytes timed s = exec (.rxStep s.cfg.endByte te) (s.withRx d).done := by
  obtain ⟨t1, t2, body, te, rfl, hbody, ht0, hbodytime, hte⟩ := timed_wire_cases hbytes htime
  obtain ⟨hheader, h₀⟩ := present_header (len := len) (id := id) (t1 := t1) (t2 := t2) hinv hidle ht0
  obtain ⟨d, hpresent, h⟩ := present_stuffed hinv h₀ (by simpa using hx) hbody hbodytime
  refine ⟨d, te, h, hte, ?_⟩
  rw [presentBytes_append, presentBytes_append, hheader, bindNext_next, hpresent, bindNext_next]
  simp only [presentBytes]
  cases exec (.rxStep s.cfg.endByte te) (s.withRx d).done <;> rfl

end

/-- Settles O32: the header, the body, and one of the two verdicts at the End byte. -/
theorem receivedFrameVerdict : Obligations.ReceivedFrameVerdict := by
  intro s len id x timed t0 hinv hidle hx hbytes htime
  obtain ⟨d, te, h, hte, hpresent⟩ := present_wire hinv hidle hx hbytes htime
  by_cases hacc : Accepts s.cfg len x
  · obtain ⟨q, hcontents, hend⟩ := exec_end_of_accepts hinv h hte hacc
    refine ⟨_, hpresent.trans hend, rfl, rfl, rfl, rfl, fun _ => ⟨hcontents, ?_⟩, fun hnot => absurd hacc hnot⟩
    exact (List.append_assoc _ _ _).symm
  · have hend := exec_end_of_not_accepts hinv h hte hacc
    exact ⟨_, hpresent.trans hend, rfl, rfl, rfl, rfl, fun hyes => absurd hyes hacc, fun _ => ⟨rfl, rfl⟩⟩

end Sys2Proof.Machine

/-! Frames of the encoder at the deframer (section 4 of 42_deframer.md, section 2 of 70_reset_and_hazards.md): the round
trip, recovery from noise and from a stale frame, and the frames with one changed byte. Each is the verdict on one frame
from Idle (`receivedFrameVerdict`), and how the bytes before it lead to Idle. -/

namespace Sys2Proof.Machine

open Sys2Proof.Spec

/-! ## The frame of a packet, from Idle -/

/-- The frame of a packet is one the deframer delivers (rules R81, R149). -/
theorem accepts_extended {cfg : Config} (hlegal : cfg.Legal) {p : List Byte} (hp : p.length ≤ cfg.mp) :
    Accepts cfg (BitVec.ofNat 8 (frameLen cfg p)) (extended p) := by
  refine ⟨by simp [extended], frameLen_byte hlegal hp, ?_⟩
  simp [extended]

/-- The payload is the body of the frame without its CRC byte (rule R81). -/
@[simp] theorem dropLast_extended (p : List Byte) : (extended p).dropLast = p := by simp [extended]

@[simp] theorem length_extended (p : List Byte) : (extended p).length = p.length + 1 := by simp [extended]

section
variable {s : State} {id : Byte} {p : List Byte} {timed : List (Byte × Time)} {t0 : Time}

/-- The frame of a packet, presented in time from Idle, delivers the packet (rules R149, R150). -/
theorem present_packetWire (hinv : s.Inv) (hidle : s.rx.bc = 0#8) (hp : p.length ≤ s.cfg.mp)
    (hbytes : timed.map Prod.fst = packetWire s.cfg id p) (htime : inTime s.cfg timed t0) :
    ∃ t, presentBytes timed s = .next t ∧ t.rx.bc = 0#8 ∧
      t.rxq.contents s.cfg.nRx = delivered s.cfg (packetOf s.cfg id p) s.rxq ∧
      t.trace = s.trace ++ [.frameOk] ++ evictEvent s.cfg.nRx s.rxq := by
  obtain ⟨t, hpresent, hbc, -, -, -, hyes, -⟩ := receivedFrameVerdict s _ id (extended p) timed t0 hinv hidle
    (by rw [length_extended]; omega) hbytes htime
  obtain ⟨hcontents, htrace⟩ := hyes (accepts_extended hinv.1 hp)
  rw [dropLast_extended] at hcontents
  exact ⟨t, hpresent, hbc, hcontents, htrace⟩

end

/-- Settles O33: the encoder's frame is the frame of the packet. -/
theorem roundTripDeliversThePacket : Obligations.RoundTripDeliversThePacket := by
  intro s id p f timed t0 hinv hidle hencode hbytes htime
  obtain ⟨hp, rfl⟩ := encodeFrame_eq_some_iff.1 hencode
  rw [(packetFrame_value hinv.1 id hp).1] at hbytes
  exact present_packetWire hinv hidle hp hbytes htime

/-! ## Noise before a frame -/

/-- Bytes other than StartByte in Idle add one NOISE each and change nothing else but the result ports (rule R144). -/
theorem present_noise {s : State} {noise : List (Byte × Time)} (hidle : s.rx.bc = 0#8)
    (hnoise : ∀ q ∈ noise, q.1 ≠ s.cfg.startByte) :
    ∃ r, presentBytes noise s = .next ((s.emits (List.replicate noise.length .noise)).respond r) := by
  induction noise generalizing s with
  | nil => exact ⟨s.out, by rw [List.length_nil, List.replicate_zero, emits_nil]; rfl⟩
  | cons q noise ih =>
    obtain ⟨hq, hnoise⟩ := List.forall_mem_cons.1 hnoise
    have hfirst := idleByteBeginsAFrameOrIsNoise s q.1 q.2 hidle
    rw [if_neg hq] at hfirst
    obtain ⟨r, hrest⟩ := ih (s := (s.emit .noise).done) hidle hnoise
    refine ⟨r, ?_⟩
    rw [presentBytes, hfirst, bindNext_next]
    refine hrest.trans (congrArg Host.Outcome.next ?_)
    simp [State.emits, State.respond, State.emit, State.done, List.replicate_succ]

/-- Settles O34: the noise leads from Idle to Idle. -/
theorem noiseBeforeAFrameIsIgnored : Obligations.NoiseBeforeAFrameIsIgnored := by
  intro s id p noise timed t0 hinv hidle hp hnoise hbytes htime
  obtain ⟨r, hpresent⟩ := present_noise hidle hnoise
  obtain ⟨t, ht, hbc, hcontents, htrace⟩ :=
    present_packetWire (s := (s.emits (List.replicate noise.length .noise)).respond r) hinv hidle hp hbytes htime
  exact ⟨t, by rw [presentBytes_append, hpresent, bindNext_next, ht], hbc, hcontents, htrace⟩

/-! ## Recovery from a stale frame -/

section
variable {s : State} {id : Byte} {p : List Byte} {timed : List (Byte × Time)} {t0 : Time}

/-- A frame whose first byte comes too late for a stale frame in the Payload state finds the deframer in Idle, with the
timeout told (rule R142). -/
theorem presentBytes_of_late {b : Byte} (hinv : s.Inv) (hbc : 3 ≤ s.rx.bc.toNat)
    (hlate : tooLate s.cfg s.rx.tstart t0) :
    presentBytes ((b, t0) :: timed) s = presentBytes ((b, t0) :: timed) (abandon (s.emit .dropTimeout)) := by
  have hlength : ¬ s.rx.bc.toNat > s.cfg.maxFrameLen := Nat.not_lt.2 hinv.bc_le
  have hfirst := exec_rxStep_of_late (b := b) hbc (.inr hlate)
  rw [if_neg hlength] at hfirst
  simp only [presentBytes, hfirst]

/-- A stale frame in the Payload state is abandoned by the frame of a packet, and the packet is delivered (rules R142,
R160). -/
theorem present_packetWire_of_late (hinv : s.Inv) (hbc : 3 ≤ s.rx.bc.toNat) (hlate : tooLate s.cfg s.rx.tstart t0)
    (hp : p.length ≤ s.cfg.mp) (hbytes : timed.map Prod.fst = packetWire s.cfg id p) (htime : inTime s.cfg timed t0) :
    ∃ t, presentBytes timed s = .next t ∧ t.rx.bc = 0#8 ∧
      t.rxq.contents s.cfg.nRx = delivered s.cfg (packetOf s.cfg id p) s.rxq ∧
      t.trace = s.trace ++ [.dropTimeout, .frameOk] ++ evictEvent s.cfg.nRx s.rxq := by
  have hidle : (abandon (s.emit .dropTimeout)).Inv := State.Inv.withRx (hinv.emit _) (Deframer.idle_wf hinv.2.1)
  obtain ⟨t, ht, hbc', hcontents, htrace⟩ := present_packetWire hidle rfl hp hbytes htime
  obtain ⟨t1, t2, body, te, rfl, -⟩ := timed_wire_cases hbytes htime
  refine ⟨t, (presentBytes_of_late hinv hbc hlate).trans ht, hbc', hcontents, htrace.trans ?_⟩
  rw [List.append_assoc, abandon, State.withRx_trace, State.emit_trace, List.append_assoc, List.append_assoc]
  rfl

end

/-- Settles O35. -/
theorem timeoutRecoversFromThePayloadState : Obligations.TimeoutRecoversFromThePayloadState :=
  fun _ _ _ _ _ hinv hbc hp hbytes hlate htime => present_packetWire_of_late hinv hbc hlate hp hbytes htime

/-! ## Two filler bytes -/

section
variable {s u : State} {a : Byte} {t : Time}

/-- The deframer is in Idle, or still in a frame begun at `t0` with at least `n` bytes counted. -/
def IdleOrBegun (t0 : Time) (n : Nat) (d : Deframer) : Prop := d.bc = 0#8 ∨ (d.tstart = t0 ∧ n ≤ d.bc.toNat)

/-- Counting a byte in the Payload state leaves the frame there: BC does not wrap (rule R157). -/
theorem payload_of_counted (hinv : s.Inv) (hbc : 3 ≤ s.rx.bc.toNat) : 3 ≤ (s.rx.bc + 1#8).toNat := by
  rw [hinv.bc_add_one]
  omega

/-- A store leaves the frame in progress with a byte more, or abandons it (rules R151 to R153). -/
theorem storeByte_idleOrBegun (hinv : s.Inv) (hbc : 3 ≤ s.rx.bc.toNat) (h : storeByte a s = .next u) :
    IdleOrBegun s.rx.tstart 3 u.rx := by
  rcases storeByte_spec hinv a with ⟨-, hstore⟩ | ⟨-, hstore⟩
  · cases hstore.symm.trans h
    exact .inr ⟨rfl, payload_of_counted hinv hbc⟩
  · cases hstore.symm.trans h
    exact .inl rfl

/-- The end of a frame leads to Idle (rule R148). -/
theorem endRule_idle (hinv : s.Inv) (hbc : 3 ≤ s.rx.bc.toNat) (h : endRule s = .next u) : u.rx.bc = 0#8 := by
  rcases endRule_spec hinv hbc with ⟨-, q, -, -, -, hend⟩ | ⟨-, hend⟩ <;> (cases hend.symm.trans h; rfl)

/-- A byte in the Payload state leaves the frame there or leads to Idle (rules R147 to R153). -/
theorem classify_payload_idleOrBegun (hinv : s.Inv) (hbc : 3 ≤ s.rx.bc.toNat) (h : classify a t s = .next u) :
    IdleOrBegun s.rx.tstart 3 u.rx := by
  rw [classify_of_payload hbc] at h
  split at h
  · exact storeByte_idleOrBegun hinv hbc h
  split at h
  · cases h; exact .inr ⟨rfl, payload_of_counted hinv hbc⟩
  split at h
  · exact .inl (endRule_idle hinv hbc h)
  · exact storeByte_idleOrBegun hinv hbc h

/-- Classifying a byte other than StartByte begins no frame, and moves the Length state to the Id state and that to the
Payload state (rules R144 to R153). -/
theorem classify_filler {t0 : Time} {n : Nat} (hinv : s.Inv) (ha : a ≠ s.cfg.startByte) (hn : n ≤ 2)
    (hstate : IdleOrBegun t0 n s.rx) (h : classify a t s = .next u) : IdleOrBegun t0 (n + 1) u.rx := by
  rcases hstate with hidle | ⟨rfl, hcount⟩
  · cases (classify_of_idle hidle).symm.trans h
    left; rw [idleRule, if_neg ha]; exact hidle
  rcases bc_cases s.rx.bc with hbc | hbc | hbc | hbc
  · cases (classify_of_idle hbc).symm.trans h
    left; rw [idleRule, if_neg ha]; exact hbc
  · cases (classify_of_length hbc).symm.trans h
    rw [hbc] at hcount
    exact .inr ⟨rfl, Nat.succ_le_succ hcount⟩
  · cases (classify_of_id hbc).symm.trans h
    exact .inr ⟨rfl, Nat.succ_le_succ hn⟩
  · exact (classify_payload_idleOrBegun hinv hbc h).imp_right fun ⟨hstart, hle⟩ => ⟨hstart, by omega⟩

/-- The guard leaves the frame in progress or abandons it (rule R142). -/
theorem rxGuard_idleOrBegun {t0 : Time} {n : Nat} (hinv : s.Inv) (hstate : IdleOrBegun t0 n s.rx) :
    IdleOrBegun t0 n (rxGuard t s).rx := by
  rcases rxGuard_trace hinv t with he | he
  · rwa [he]
  · rw [he]; exact .inl rfl

/-- A filler byte, at any time, begins no frame (rules R142, R155). -/
theorem exec_filler {t0 : Time} {n : Nat} (hinv : s.Inv) (ha : a ≠ s.cfg.startByte) (ht : t < 2 ^ s.cfg.tw) (hn : n ≤ 2)
    (hstate : IdleOrBegun t0 n s.rx) :
    ∃ u, exec (.rxStep a t) s = .next u ∧ u.Inv ∧ u.cfg = s.cfg ∧ IdleOrBegun t0 (n + 1) u.rx := by
  obtain ⟨v, hv, hvinv⟩ := rxStep_inv hinv a ht
  obtain ⟨hcfg, -⟩ := (received_rxStep hv).fields
  have hfiller := classify_filler (hinv.rxGuard t) (by rwa [rxGuard_cfg]) hn (rxGuard_idleOrBegun hinv hstate) hv
  exact ⟨v.done, by rw [exec_rxStep, hv, bindNext_next], hvinv, hcfg, hfiller⟩

/-- A frame of a packet that comes too late for a frame in the Payload state, or finds the deframer in Idle, is
delivered last. -/
theorem present_packetWire_last {id : Byte} {p : List Byte} {timed : List (Byte × Time)} {t0 t1 : Time} (hinv : s.Inv)
    (hstate : IdleOrBegun t1 3 s.rx) (hlate : tooLate s.cfg t1 t0) (hp : p.length ≤ s.cfg.mp)
    (hbytes : timed.map Prod.fst = packetWire s.cfg id p) (htime : inTime s.cfg timed t0) :
    ∃ t, presentBytes timed s = .next t ∧ t.rx.bc = 0#8 ∧
      (t.rxq.contents s.cfg.nRx).getLast? = some (packetOf s.cfg id p) := by
  have hlast (t : State) (h : t.rxq.contents s.cfg.nRx = delivered s.cfg (packetOf s.cfg id p) s.rxq) :
      (t.rxq.contents s.cfg.nRx).getLast? = some (packetOf s.cfg id p) := by
    rw [h, delivered, List.getLast?_concat]
  rcases hstate with hidle | ⟨rfl, hbc⟩
  · obtain ⟨t, ht, hbc, hcontents, -⟩ := present_packetWire hinv hidle hp hbytes htime
    exact ⟨t, ht, hbc, hlast t hcontents⟩
  · obtain ⟨t, ht, hbc, hcontents, -⟩ := present_packetWire_of_late hinv hbc hlate hp hbytes htime
    exact ⟨t, ht, hbc, hlast t hcontents⟩

end

/-- Settles O36: each filler byte counts or leads to Idle, so after two of them a stale frame is in the Payload state,
where its timeout is seen. -/
theorem twoFillersRecoverFromEveryState : Obligations.TwoFillersRecoverFromEveryState := by
  intro s id a b p timed t0 ta tb hinv hbc hp ha hb hta htb hbytes hlate htime
  obtain ⟨u, hu, huinv, hucfg, hustate⟩ := exec_filler (n := 1) hinv ha hta (by decide) (.inr ⟨rfl, hbc⟩)
  rw [← hucfg] at hb htb
  obtain ⟨v, hv, hvinv, hvcfg, hvstate⟩ := exec_filler huinv hb htb (by decide) hustate
  rw [← hucfg, ← hvcfg] at hp hbytes hlate htime ⊢
  obtain ⟨t, ht, hbc', hlast⟩ := present_packetWire_last hvinv hvstate hlate hp hbytes htime
  exact ⟨t, by rw [presentBytes, hu, bindNext_next, presentBytes, hv, bindNext_next, ht], hbc', hlast⟩

/-! ## One changed byte -/

/-- The CRC byte of a body is right exactly where the CRC of the body is 0 (section 1 of 40_crc8.md, property (c)). -/
theorem getLast?_eq_crcOf_iff {x : List Byte} (hne : x ≠ []) :
    x.getLast? = some (crcOf x.dropLast) ↔ crc8 x = 0#8 := by
  have hcrc := crc8_concat_eq_zero_iff x.dropLast (x.getLast hne)
  rw [List.dropLast_append_getLast] at hcrc
  rw [hcrc, List.getLast?_eq_some_getLast hne, Option.some.injEq, crcOf_eq_crc8]

/-- A byte outside RES counts once in the stuffed length, whatever it is (rule R82). -/
theorem length_stuffed_of_not_reserved {cfg : Config} (a b : List Byte) {x y : Byte} (hx : cfg.reserved x = false)
    (hy : cfg.reserved y = false) : (stuffed cfg (a ++ x :: b)).length = (stuffed cfg (a ++ y :: b)).length := by
  simp [length_stuffed, List.countP_append, hx, hy]

/-- Settles O37: another length byte does not count the frame; one changed byte leaves the length right and makes the
CRC wrong. -/
theorem oneChangedByteDropsTheFrame : Obligations.OneChangedByteDropsTheFrame := by
  intro s id p timed t0 hinv hidle hp htime
  have hframe : (BitVec.ofNat 8 (frameLen s.cfg p)).toNat = frameLen s.cfg p := frameLen_byte hinv.1 hp
  refine ⟨fun len hlen hbytes => ?_, fun a b x y hsplit hne hx hy hbytes => ?_⟩
  · have hlen' : len.toNat ≠ 4 + (stuffed s.cfg (extended p)).length := hlen
    obtain ⟨t, ht, hbc, -, -, -, -, hno⟩ := receivedFrameVerdict s len id (extended p) timed t0 hinv hidle
      (by rw [length_extended]; omega) hbytes htime
    obtain ⟨hrxq, htrace⟩ := hno fun ⟨_, hcount, _⟩ => hlen' hcount
    rw [if_neg (by simp [extended]), if_pos hlen'] at htrace
    exact ⟨t, ht, hbc, hrxq, htrace⟩
  · have hsize : (a ++ y :: b).length = (extended p).length := by simp [hsplit]
    have hlen : frameLen s.cfg p = 4 + (stuffed s.cfg (a ++ y :: b)).length := by
      rw [frameLen, hsplit, length_stuffed_of_not_reserved a b hx hy]
    have hcrc : crc8 (a ++ y :: b) ≠ 0#8 := by
      have hzero : crc8 (a ++ x :: b) = 0#8 := by rw [← hsplit]; exact crcOfMessageAndItsCrcIsZero p
      rw [← hzero]
      exact (crcDetectsOneChangedByte a b x y hne).symm
    obtain ⟨t, ht, hbc, -, -, -, -, hno⟩ := receivedFrameVerdict s _ id (a ++ y :: b) timed t0 hinv hidle
      (by rw [hsize, length_extended]; omega) hbytes htime
    obtain ⟨hrxq, htrace⟩ := hno fun ⟨hne, _, hlast⟩ => hcrc ((getLast?_eq_crcOf_iff hne).1 hlast)
    rw [if_neg (by simp), if_neg (by rw [hframe, hlen]; simp)] at htrace
    exact ⟨t, ht, hbc, hrxq, htrace⟩

end Sys2Proof.Machine

/-! SERVICE (sections 1 to 3 of 44_engine.md): its read loop is RX_STEPs on the bytes it takes, with their clock
readings, in the state with both taken; its send step makes at most one write. -/

namespace Sys2Proof.Machine

open Sys2Proof.Spec

/-! ## Bytes presented in a state with other result ports -/

/-- No instruction reads the result ports (rule R48). -/
theorem exec_respond (i : Instr) (s : State) (r : Results) : exec i (s.respond r) = exec i s := by
  have h := exec_retold s r [] i
  rw [show s.retold r [] = s.respond r from rfl] at h
  rw [h]
  cases exec i s <;> rfl

/-- Bytes presented in a state with other result ports do the same but for the result ports. -/
theorem presentBytes_respond {ps : List (Byte × Time)} {s : State} {v : State} {r : Results}
    (h : presentBytes ps s = .next (v.respond r)) (r' : Results) :
    ∃ r'', presentBytes ps (s.respond r') = .next (v.respond r'') := by
  cases ps with
  | nil => cases h; exact ⟨r', rfl⟩
  | cons p ps => exact ⟨r, by rw [presentBytes, exec_respond]; exact h⟩

/-! ## Taking bytes and clock readings -/

/-- The bytes of the first `k` reads of a SERVICE, with their clock readings. -/
def timedReads (k : Nat) (s : State) : List (Byte × Time) := (s.chIn.take k).zip ((List.range k).map (serviceTime s))

/-- The state with the bytes and the clock readings of `k` reads taken from the agents. -/
def readsTaken (k : Nat) (s : State) : State :=
  { s with
    chIn := s.chIn.drop k
    clock := if s.cfg.clockPresent then s.clock.drop k else s.clock
    drawn := if s.cfg.clockPresent then s.drawn + (k - s.clock.length) else s.drawn }

/-- Taking nothing changes nothing. -/
theorem readsTaken_zero (s : State) : readsTaken 0 s = s := by simp [readsTaken]

/-- A presented byte does not see what is taken from the agents (rule R155). -/
theorem rxStep_readsTaken {b : Byte} {now : Time} {s t : State} (k : Nat) (h : rxStep b now s = .next t) :
    rxStep b now (readsTaken k s) = .next (readsTaken k t) := by
  obtain ⟨hcfg, -, hchIn, -, hclock, hdrawn, -, hout⟩ := (received_rxStep h).fields
  have hbeside := rxStep_beside s (readsTaken k s).chIn (readsTaken k s).clock (readsTaken k s).drawn s.out [] b now
  rw [h, mapNext_next] at hbeside
  refine Eq.trans hbeside (congrArg Host.Outcome.next ?_)
  simp only [State.beside, readsTaken, hcfg, hchIn, hclock, hdrawn, ← hout, List.nil_append]

section
variable {s : State} {b : Byte} {rest : List Byte}

/-- The first read's clock reading (rule R217). -/
theorem sampleNow_eq_serviceTime (s : State) (rest : List Byte) :
    (sampleNow (s.withChIn rest)).1 = serviceTime s 0 := by
  cases hclock : s.cfg.clockPresent with
  | false => simp [sampleNow_absent (s := s.withChIn rest) hclock, serviceTime, hclock]
  | true =>
    cases hsamples : s.clock with
    | nil => simp [sampleNow_nil (s := s.withChIn rest) hclock hsamples, serviceTime, hclock, hsamples]
    | cons t ts => simp [sampleNow_cons (s := s.withChIn rest) hclock hsamples, serviceTime, hclock, hsamples]

/-- The later reads' clock readings are those of the state after the first (rule R217). -/
theorem serviceTime_sampleNow (s : State) (rest : List Byte) (j : Nat) :
    serviceTime (sampleNow (s.withChIn rest)).2 j = serviceTime s (j + 1) := by
  cases hclock : s.cfg.clockPresent with
  | false => simp [sampleNow_absent (s := s.withChIn rest) hclock, serviceTime, hclock]
  | true =>
    cases hsamples : s.clock with
    | nil =>
      simp [sampleNow_nil (s := s.withChIn rest) hclock hsamples, serviceTime, hclock, hsamples, Nat.add_assoc,
        Nat.add_comm 1 j]
    | cons t ts => simp [sampleNow_cons (s := s.withChIn rest) hclock hsamples, serviceTime, hclock, hsamples]

/-- Taking `k` more reads after the first is taking `k + 1` (rules R215, R217). -/
theorem readsTaken_sampleNow (hchIn : s.chIn = b :: rest) (k : Nat) :
    readsTaken k (sampleNow (s.withChIn rest)).2 = readsTaken (k + 1) s := by
  cases hclock : s.cfg.clockPresent with
  | false =>
    rw [sampleNow_absent (s := s.withChIn rest) hclock]
    ext1 <;> simp [readsTaken, hclock, hchIn]
  | true =>
    cases hsamples : s.clock with
    | nil =>
      rw [sampleNow_nil (s := s.withChIn rest) hclock hsamples]
      ext1 <;> simp [readsTaken, hclock, hsamples, hchIn]
      omega
    | cons t ts =>
      rw [sampleNow_cons (s := s.withChIn rest) hclock hsamples]
      ext1 <;> simp [readsTaken, hclock, hsamples, hchIn]

/-- The timed bytes of `k + 1` reads are the first one and those of the state after it. -/
theorem timedReads_succ {v : State} (hchIn : s.chIn = b :: rest) (hrest : v.chIn = rest)
    (htimes : ∀ j, serviceTime v j = serviceTime s (j + 1)) (k : Nat) :
    timedReads (k + 1) s = (b, serviceTime s 0) :: timedReads k v := by
  have hmap : (List.range k).map (serviceTime v) = (List.range k).map (serviceTime s ∘ Nat.succ) :=
    List.map_congr_left fun j _ => htimes j
  simp only [timedReads, hchIn, hrest, hmap, List.range_succ_eq_map, List.take_succ_cons, List.map_cons, List.map_map,
    List.zip_cons_cons]

/-- A presented byte changes no clock reading to come (rule R155). -/
theorem serviceTime_of_rxStep {now : Time} {u v : State} (h : rxStep b now u = .next v) (j : Nat) :
    serviceTime v j = serviceTime u j := by
  obtain ⟨hcfg, -, -, -, hclock, hdrawn, -, -⟩ := (received_rxStep h).fields
  simp only [serviceTime, hcfg, hclock, hdrawn]

end

/-- The read loop is RX_STEPs on the bytes it takes, in the state with them taken, but for the result ports (rules R215,
R217). -/
theorem readLoop_presents (n : Nat) {s v : State} (h : readLoop n s = .next v) :
    ∃ r, presentBytes (timedReads (min n s.chIn.length) s) (readsTaken (min n s.chIn.length) s) =
      .next (v.respond r) := by
  induction n generalizing s with
  | zero =>
    cases h
    exact ⟨v.out, by rw [Nat.zero_min, readsTaken_zero]; rfl⟩
  | succ n ih =>
    unfold readLoop at h
    split at h
    next hchIn =>
      cases h
      exact ⟨v.out, by rw [hchIn, List.length_nil, Nat.min_zero, readsTaken_zero]; rfl⟩
    next b rest hchIn =>
      obtain ⟨w, hw, h⟩ := bindNext_eq_next.1 h
      obtain ⟨r, hpresent⟩ := ih h
      obtain ⟨-, samples, d, hsample⟩ := sampleNow_spec (s.withChIn rest)
      obtain ⟨-, -, hchIn', -⟩ := (received_rxStep hw).fields
      have hrest : w.chIn = rest := by rw [hchIn', hsample]; rfl
      rw [hrest] at hpresent
      have htimes (j : Nat) : serviceTime w j = serviceTime s (j + 1) :=
        (serviceTime_of_rxStep hw j).trans (serviceTime_sampleNow s rest j)
      have hfirst := rxStep_readsTaken (min n rest.length) hw
      rw [sampleNow_eq_serviceTime, readsTaken_sampleNow hchIn] at hfirst
      obtain ⟨r', hpresent'⟩ := presentBytes_respond hpresent (quietResults (readsTaken (min n rest.length) w).cfg)
      refine ⟨r', ?_⟩
      rw [show min (n + 1) s.chIn.length = min n rest.length + 1 by rw [hchIn, List.length_cons]; omega,
        timedReads_succ hchIn hrest htimes, presentBytes, exec_rxStep, hfirst, bindNext_next, bindNext_next]
      exact hpresent'

/-! ## The two halves of SERVICE -/

/-- Settles O50: the read loop presents the bytes, and the send step finds TXQ and the channel output as SERVICE did. -/
theorem serviceReadsThenSends : Obligations.ServiceReadsThenSends := by
  intro s hinv
  obtain ⟨v, hread, hvinv⟩ := readLoop_inv s.cfg.bpt hinv
  obtain ⟨hcfg, htxq, hchOut, -, -⟩ := readLoop_frame s.cfg.bpt hread
  obtain ⟨r, hpresent⟩ := readLoop_presents s.cfg.bpt hread
  refine ⟨v.respond r, hpresent, fun hempty => ?_, fun f hne hf => ?_⟩
  · rw [exec_service hread (sendStep_empty (htxq ▸ hempty)), ← hcfg]
    rfl
  · rw [← htxq] at hne hf
    rw [exec_service hread (sendStep_some hne hf), ← hcfg, ← htxq, ← hchOut]
    rfl

/-- The send step makes at most one write, of a frame's bytes (rule R216). -/
theorem sendStep_writes {s t : State} (hinv : s.Inv) (h : sendStep s = .next t) :
    ∃ q writes, t = (s.withTxq q).withChOut (s.chOut ++ writes) ∧ writes.length ≤ 1 ∧
      ∀ w ∈ writes, w.length ≤ s.cfg.maxFrameLen := by
  by_cases hempty : s.txq.count = 0
  · cases (sendStep_empty hempty).symm.trans h
    exact ⟨s.txq, [], by rw [List.append_nil]; rfl, by simp, by simp⟩
  · obtain ⟨f, hf, hfits, -⟩ := hinv.txq_wf.front_slot
    cases (sendStep_some hempty hf).symm.trans h
    refine ⟨_, [f.value], rfl, by simp, fun w hw => ?_⟩
    rw [List.mem_singleton.1 hw, ← hfits]
    exact List.length_take_le' _ _

/-- Settles O51: the read loop takes what `readLoop_taken` says, of which the supplied samples are those there are; the
send step makes the one write. -/
theorem serviceWorkIsBounded : Obligations.ServiceWorkIsBounded := by
  intro s t hinv h
  obtain ⟨u, v, hread, hsend, rfl⟩ := execService_next h
  obtain ⟨u', hu', huinv⟩ := readLoop_inv s.cfg.bpt hinv
  cases hread.symm.trans hu'
  obtain ⟨hcfg, -, hchOut, -, -⟩ := readLoop_frame s.cfg.bpt hread
  obtain ⟨hchIn, hclock, hdrawn⟩ := readLoop_taken s.cfg.bpt hread
  obtain ⟨q, writes, rfl, hone, hlength⟩ := sendStep_writes huinv hsend
  rw [hcfg] at hlength
  refine ⟨?_, writes, congrArg (· ++ writes) hchOut, hone, hlength⟩
  cases hpresent : s.cfg.clockPresent with
  | false =>
    rw [hpresent, if_neg (by decide)] at hclock hdrawn
    exact ⟨min s.cfg.bpt s.chIn.length, 0, 0, Nat.min_le_left _ _, Nat.min_le_right _ _, hchIn, Nat.zero_le _, hclock,
      hdrawn, Nat.zero_le _⟩
  | true =>
    rw [hpresent, if_pos rfl] at hclock hdrawn
    refine ⟨min s.cfg.bpt s.chIn.length, min (min s.cfg.bpt s.chIn.length) s.clock.length,
      min s.cfg.bpt s.chIn.length - s.clock.length, Nat.min_le_left _ _, Nat.min_le_right _ _, hchIn,
      Nat.min_le_right _ _, ?_, hdrawn, by omega⟩
    exact hclock.trans (List.drop_eq_drop_iff.2 (by omega))

/-! ## SEND, then SERVICE -/

/-- A push on an empty FIFO is in slot FRONT, and popping it leaves the FIFO empty (rules R183, R185). -/
theorem pushed_of_empty {α : Type} {n : Nat} {ok : α → Prop} {q : Fifo α} (h : q.Wf n ok) (hempty : q.count = 0)
    (x : α) :
    (pushed n x q).count ≠ 0 ∧ (pushed n x q).slots[(pushed n x q).front]? = some x ∧
      (popped n (pushed n x q)).count = 0 := by
  have hlt := h.front_lt
  obtain ⟨-, hfront, -, hback, -⟩ := h
  rw [hempty, Nat.add_zero, Nat.mod_eq_of_lt (Nat.lt_succ_of_le hfront)] at hback
  refine ⟨Nat.succ_ne_zero _, ?_, hempty⟩
  simp only [pushed, hback]
  exact List.getElem?_set_self hlt

/-- Settles O53: SEND queues the frame of the packet, which is the oldest for the SERVICE. -/
theorem sendThenServiceWritesTheFrame : Obligations.SendThenServiceWritesTheFrame := by
  intro s id plen payload hinv hport hplen hempty
  have ⟨⟨_, _, _, _, ⟨hnTx, _⟩, _⟩, _⟩ := hinv
  have hpayload : (payload.take plen.toNat).length ≤ s.cfg.mp := by rw [List.length_take]; omega
  have hsend := (sendQueuesTheFrame s id plen payload hinv hport).2.2 hplen (by omega)
  obtain ⟨t, ht, htinv⟩ := exec_inv hinv (i := .send id plen payload) (by simpa [Instr.wellFormed] using hport)
  obtain rfl := Host.Outcome.next.inj (hsend.symm.trans ht)
  obtain ⟨u, -, -, hservice⟩ := serviceReadsThenSends _ htinv
  obtain ⟨hcount, hfront, hpopped⟩ :=
    pushed_of_empty hinv.txq_wf hempty (packetFrame s.cfg id (payload.take plen.toNat))
  refine ⟨_, _, hsend, hservice _ hcount hfront, ?_, hpopped⟩
  exact congrArg (fun w => s.chOut ++ [w]) (packetFrame_value hinv.1 id hpayload).1

end Sys2Proof.Machine

/-! What reset leaves unspecified, stale registers and free slots are never observed (sections 5 and 9 of 10_state.md):
two states within the invariant that are alike in what a rule may still read (`Twins`) make alike steps. -/

namespace Sys2Proof.Machine

open Sys2Proof.Spec

/-! ## Alike FIFOs -/

section
variable {α : Type} {n : Nat} {ok : α → Prop} {p q : Fifo α} {x : α}

theorem Fifo.Alike.refl (n : Nat) (q : Fifo α) : Fifo.Alike n q q := ⟨rfl, rfl, rfl, rfl⟩

theorem Fifo.Alike.count_eq (h : Fifo.Alike n p q) : p.count = q.count := h.2.2.1

/-- A push on a FIFO with room appends to the contents (rule R183). -/
theorem contents_pushed (h : q.Wf n ok) (hroom : q.count < n) (hx : ok x) :
    (pushed n x q).contents n = q.contents n ++ [x] := by
  obtain ⟨q', -, rfl, -, hcontents⟩ := fifoInsert_spec h hroom hx
  exact hcontents

/-- Pushes on alike FIFOs with room leave alike FIFOs (rule R183). -/
theorem Fifo.Alike.pushed (h : Fifo.Alike n p q) (hp : p.Wf n ok) (hq : q.Wf n ok) (hroom : p.count < n) (hx : ok x) :
    Fifo.Alike n (pushed n x p) (pushed n x q) := by
  obtain ⟨hfront, hback, hcount, hcontents⟩ := h
  refine ⟨hfront, ?_, ?_, ?_⟩
  · simp only [Spec.pushed, hback]
  · simp only [Spec.pushed, hcount]
  · rw [contents_pushed hp hroom hx, contents_pushed hq (hcount ▸ hroom) hx, hcontents]

/-- Discarding the oldest of alike FIFOs leaves alike FIFOs (rule R185). -/
theorem Fifo.Alike.dropOldest (h : Fifo.Alike n p q) (hp : p.Wf n ok) (hq : q.Wf n ok) (hc : 0 < p.count) :
    Fifo.Alike n (fifoDropOldest n p) (fifoDropOldest n q) := by
  obtain ⟨hfront, hback, hcount, hcontents⟩ := h
  refine ⟨?_, hback, ?_, ?_⟩
  · simp only [fifoDropOldest, hfront]
  · simp only [fifoDropOldest, hcount]
  · rw [(fifoDropOldest_spec hp hc).2, (fifoDropOldest_spec hq (hcount ▸ hc)).2, hcontents]

/-- Alike FIFOs that hold an element have the same one in slot FRONT (rule R181). -/
theorem Fifo.Alike.front_slot (h : Fifo.Alike n p q) (hp : p.Wf n ok) (hq : q.Wf n ok) (hc : 0 < p.count) :
    p.slots[p.front]? = q.slots[q.front]? := by
  obtain ⟨-, -, hcount, hcontents⟩ := h
  rw [← Fifo.head_contents hp hc, hcontents, Fifo.head_contents hq (hcount ▸ hc)]

/-- Pops of alike FIFOs answer the same element and events, and leave alike FIFOs (rule R185). -/
theorem fifoPop_alike (h : Fifo.Alike n p q) (hp : p.Wf n ok) (hq : q.Wf n ok) (d : α) :
    ∃ y p' q' evs, fifoPop n d p = .next ⟨y, p', evs⟩ ∧ fifoPop n d q = .next ⟨y, q', evs⟩ ∧ Fifo.Alike n p' q' := by
  have hcount := h.count_eq
  rcases Nat.eq_zero_or_pos p.count with hc | hc
  · exact ⟨d, p, q, _, fifoPop_empty hc, fifoPop_empty (hcount ▸ hc), h⟩
  · obtain ⟨y, hy, -⟩ := hp.front_slot
    exact ⟨y, _, _, _, fifoPop_next hc hy, fifoPop_next (hcount ▸ hc) ((h.front_slot hp hq hc).symm.trans hy),
      h.dropOldest hp hq hc⟩

/-- Peeks at alike FIFOs answer the same element (rule R186). -/
theorem fifoPeek_alike (h : Fifo.Alike n p q) (hp : p.Wf n ok) (hq : q.Wf n ok) (d : α) :
    ∃ y, fifoPeek d p = .next y ∧ fifoPeek d q = .next y := by
  have hcount := h.count_eq
  rcases Nat.eq_zero_or_pos p.count with hc | hc
  · exact ⟨d, if_pos hc, if_pos (hcount ▸ hc)⟩
  · obtain ⟨y, hy, -⟩ := hp.front_slot
    exact ⟨y, fifoPeek_next hc hy, fifoPeek_next (hcount ▸ hc) ((h.front_slot hp hq hc).symm.trans hy)⟩

/-- Cleared FIFOs are alike (rule R187). -/
theorem fifoClear_alike (n : Nat) (p q : Fifo α) : Fifo.Alike n (fifoClear p) (fifoClear q) := ⟨rfl, rfl, rfl, rfl⟩

/-- Alike RXQs after a push have the same registers (rule R184). -/
theorem rxqPushed_alike {p q p' q' : Fifo Packet} {x : Packet} (h : Fifo.Alike n p q) (hp' : p' = rxqPushed n x p)
    (hq' : q' = rxqPushed n x q) (hcontents : p'.contents n = q'.contents n) : Fifo.Alike n p' q' := by
  obtain ⟨hfront, hback, hcount, -⟩ := h
  refine ⟨?_, ?_, ?_, hcontents⟩ <;> rw [hp', hq', rxqPushed, rxqPushed, hcount] <;> split <;>
    simp only [evictPushed, Spec.pushed, hfront, hback, hcount]

end

/-! ## Alike parse states -/

section
variable {d e : Deframer}

theorem Deframer.Alike.refl (d : Deframer) : Deframer.Alike d d :=
  ⟨rfl, fun _ => ⟨rfl, rfl, rfl, rfl⟩, fun _ => rfl, fun _ => rfl⟩

theorem Deframer.Alike.bc_eq (h : Deframer.Alike d e) : d.bc = e.bc := h.1

theorem Deframer.Alike.dlen_eq (h : Deframer.Alike d e) (hbc : 2 ≤ d.bc.toNat) : d.dlen = e.dlen := h.2.2.1 hbc

theorem Deframer.Alike.did_eq (h : Deframer.Alike d e) (hbc : 3 ≤ d.bc.toNat) : d.did = e.did := h.2.2.2 hbc

/-- In Idle a rule may read BC only, so two Idle parse states are alike (rule R44 (e)). -/
theorem Deframer.Alike.of_idle (hd : d.bc = 0#8) (he : e.bc = 0#8) : Deframer.Alike d e := by
  refine ⟨hd.trans he.symm, ?_, ?_, ?_⟩ <;> (intro h; rw [hd] at h; exact absurd h (by decide))

/-- What alike parse states share from the frame start on. -/
theorem Deframer.Alike.begun (h : Deframer.Alike d e) (hbc : 1 ≤ d.bc.toNat) :
    d.esc = e.esc ∧ d.pidx = e.pidx ∧ d.tstart = e.tstart ∧ d.pbuf.take d.pidx.toNat = e.pbuf.take d.pidx.toNat := by
  obtain ⟨hesc, hpidx, htstart, hstored⟩ := h.2.1 hbc
  exact ⟨hesc, hpidx, htstart, by rw [hstored, hpidx]⟩

end

/-! ## Alike states -/

section
variable {s t : State}

theorem State.Alike.chIn_eq (h : State.Alike s t) : s.chIn = t.chIn := h.2.2.2.2.1

theorem State.Alike.chOut_eq (h : State.Alike s t) : s.chOut = t.chOut := h.2.2.2.2.2.1

theorem State.Alike.clock_eq (h : State.Alike s t) : s.clock = t.clock ∧ s.drawn = t.drawn := by
  obtain ⟨-, -, -, -, -, -, hclock, hdrawn, -⟩ := h
  exact ⟨hclock, hdrawn⟩

theorem State.Alike.inputs_eq (h : State.Alike s t) : s.inputs = t.inputs := by
  obtain ⟨-, -, -, -, -, -, -, -, hinputs, -⟩ := h
  exact hinputs

theorem State.Alike.withRx (h : State.Alike s t) {d e : Deframer} (hd : Deframer.Alike d e) :
    State.Alike (s.withRx d) (t.withRx e) := by
  obtain ⟨hcfg, -, htxq, hrxq, hrest⟩ := h
  exact ⟨hcfg, hd, htxq, hrxq, hrest⟩

theorem State.Alike.withTxq (h : State.Alike s t) {p q : Fifo Frame} (hq : Fifo.Alike s.cfg.nTx p q) :
    State.Alike (s.withTxq p) (t.withTxq q) := by
  obtain ⟨hcfg, hrx, -, hrxq, hrest⟩ := h
  exact ⟨hcfg, hrx, hq, hrxq, hrest⟩

theorem State.Alike.withRxq (h : State.Alike s t) {p q : Fifo Packet} (hq : Fifo.Alike s.cfg.nRx p q) :
    State.Alike (s.withRxq p) (t.withRxq q) := by
  obtain ⟨hcfg, hrx, htxq, -, hrest⟩ := h
  exact ⟨hcfg, hrx, htxq, hq, hrest⟩

theorem State.Alike.withChIn (h : State.Alike s t) (bytes : List Byte) :
    State.Alike (s.withChIn bytes) (t.withChIn bytes) := by
  obtain ⟨hcfg, hrx, htxq, hrxq, -, hrest⟩ := h
  exact ⟨hcfg, hrx, htxq, hrxq, rfl, hrest⟩

theorem State.Alike.withChOut (h : State.Alike s t) (writes : List (List Byte)) :
    State.Alike (s.withChOut writes) (t.withChOut writes) := by
  obtain ⟨hcfg, hrx, htxq, hrxq, hchIn, -, hrest⟩ := h
  exact ⟨hcfg, hrx, htxq, hrxq, hchIn, rfl, hrest⟩

theorem State.Alike.withClock (h : State.Alike s t) (samples : List Time) (drawn : Nat) :
    State.Alike (s.withClock samples drawn) (t.withClock samples drawn) := by
  obtain ⟨hcfg, hrx, htxq, hrxq, hchIn, hchOut, -, -, hrest⟩ := h
  exact ⟨hcfg, hrx, htxq, hrxq, hchIn, hchOut, rfl, rfl, hrest⟩

theorem State.Alike.withInputs (h : State.Alike s t) (inputs : List Input) :
    State.Alike (s.withInputs inputs) (t.withInputs inputs) := by
  obtain ⟨hcfg, hrx, htxq, hrxq, hchIn, hchOut, hclock, hdrawn, -, hrest⟩ := h
  exact ⟨hcfg, hrx, htxq, hrxq, hchIn, hchOut, hclock, hdrawn, rfl, hrest⟩

theorem State.Alike.respond (h : State.Alike s t) {r r' : Results} (hr : r = r') :
    State.Alike (s.respond r) (t.respond r') := by
  obtain ⟨hcfg, hrx, htxq, hrxq, hchIn, hchOut, hclock, hdrawn, hinputs, -, htrace⟩ := h
  exact ⟨hcfg, hrx, htxq, hrxq, hchIn, hchOut, hclock, hdrawn, hinputs, hr, htrace⟩

theorem State.Alike.emits (h : State.Alike s t) (evs : List TraceEvent) : State.Alike (s.emits evs) (t.emits evs) := by
  obtain ⟨hcfg, hrx, htxq, hrxq, hchIn, hchOut, hclock, hdrawn, hinputs, hout, htrace⟩ := h
  exact ⟨hcfg, hrx, htxq, hrxq, hchIn, hchOut, hclock, hdrawn, hinputs, hout, congrArg (· ++ evs) htrace⟩

theorem State.Alike.emit (h : State.Alike s t) (ev : TraceEvent) : State.Alike (s.emit ev) (t.emit ev) := h.emits [ev]

theorem State.Alike.done (h : State.Alike s t) : State.Alike s.done t.done := h.respond (congrArg quietResults h.1)

/-- Illegal commands are answered alike (rule R233). -/
theorem State.Alike.illegalCommand (h : State.Alike s t) : State.Alike (illegalCommand s) (illegalCommand t) :=
  (h.emit .illegalCmd).respond (congrArg (fun cfg => { quietResults cfg with status := 1#1 }) h.1)

end

/-- Two states within the invariant that no operation tells apart. -/
structure Twins (s t : State) : Prop where
  left : s.Inv
  right : t.Inv
  alike : State.Alike s t

/-- Two outcomes that answer alike states. -/
def AlikeNext (o o' : Host.Outcome State Fault Refusal) : Prop :=
  ∃ s t, o = .next s ∧ o' = .next t ∧ State.Alike s t

section
variable {s t : State}

theorem Twins.cfg (h : Twins s t) : s.cfg = t.cfg := h.alike.1

theorem Twins.rx (h : Twins s t) : Deframer.Alike s.rx t.rx := h.alike.2.1

theorem Twins.txq (h : Twins s t) : Fifo.Alike s.cfg.nTx s.txq t.txq := h.alike.2.2.1

theorem Twins.rxq (h : Twins s t) : Fifo.Alike s.cfg.nRx s.rxq t.rxq := h.alike.2.2.2.1

/-- Twins with the same pending inputs are twins. -/
theorem Twins.withInputs (h : Twins s t) (inputs : List Input) : Twins (s.withInputs inputs) (t.withInputs inputs) where
  left := h.left
  right := h.right
  alike := h.alike.withInputs inputs

/-- The second TXQ's invariant, in the first state's constants. -/
theorem Twins.right_txq (h : Twins s t) : t.txq.Wf s.cfg.nTx (Frame.Ok s.cfg) := by rw [h.cfg]; exact h.right.txq_wf

/-- The second RXQ's invariant, in the first state's constants. -/
theorem Twins.right_rxq (h : Twins s t) : t.rxq.Wf s.cfg.nRx (Packet.Ok s.cfg) := by rw [h.cfg]; exact h.right.rxq_wf

/-- Alike states are answered. -/
theorem AlikeNext.next (h : State.Alike s t) : AlikeNext (.next s) (.next t) := ⟨s, t, rfl, rfl, h⟩

/-- Driving the quiet result ports on alike answers. -/
theorem AlikeNext.done {o o' : Host.Outcome State Fault Refusal} (h : AlikeNext o o') :
    AlikeNext (bindNext o fun u => .next u.done) (bindNext o' fun u => .next u.done) := by
  obtain ⟨u, v, rfl, rfl, halike⟩ := h
  exact .next halike.done

/-- Two operations that answer alike, each within the invariant, lead to twins. -/
theorem AlikeNext.twins {o o' : Host.Outcome State Fault Refusal} (h : AlikeNext o o') (ho : ∃ u, o = .next u ∧ u.Inv)
    (ho' : ∃ v, o' = .next v ∧ v.Inv) : ∃ u v, o = .next u ∧ o' = .next v ∧ Twins u v := by
  obtain ⟨u, v, rfl, rfl, halike⟩ := h
  obtain ⟨u', hu, huinv⟩ := ho
  obtain ⟨v', hv, hvinv⟩ := ho'
  cases hu
  cases hv
  exact ⟨u, v, rfl, rfl, huinv, hvinv, halike⟩

/-! ## The queue operations -/

/-- PushDrop on alike TXQs (rule R183). -/
theorem txqPushDrop_alike (h : Twins s t) {x : Frame} (hx : x.Ok s.cfg) :
    AlikeNext (txqPushDrop x s) (txqPushDrop x t) := by
  have hcount := h.txq.count_eq
  by_cases hfull : s.txq.count = s.cfg.nTx
  · rw [txqPushDrop_of_full x hfull, txqPushDrop_of_full x (by rw [← hcount, hfull, h.cfg])]
    exact .next (h.alike.emit _)
  · have hroom : s.txq.count < s.cfg.nTx := Nat.lt_of_le_of_ne h.left.txq_wf.count_le hfull
    rw [txqPushDrop_of_room x h.left.txq_wf.back_lt hfull,
      txqPushDrop_of_room x h.right.txq_wf.back_lt (by rw [← hcount, ← h.cfg]; exact hfull), ← h.cfg]
    exact .next (h.alike.withTxq (h.txq.pushed h.left.txq_wf h.right_txq hroom hx))

/-- The contents and the event of a push depend on what alike RXQs share (rule R184). -/
theorem delivered_alike (h : Twins s t) (x : Packet) :
    delivered s.cfg x s.rxq = delivered t.cfg x t.rxq ∧ evictEvent s.cfg.nRx s.rxq = evictEvent t.cfg.nRx t.rxq := by
  obtain ⟨-, -, hcount, hcontents⟩ := h.rxq
  simp only [delivered, evictEvent, hcount, hcontents, ← h.cfg, and_self]

/-- RXQs with a delivered packet are alike (rule R184). -/
theorem rxqPushed_twins (h : Twins s t) {x : Packet} {p q : Fifo Packet} (hp : p = rxqPushed s.cfg.nRx x s.rxq)
    (hpcontents : p.contents s.cfg.nRx = delivered s.cfg x s.rxq) (hq : q = rxqPushed t.cfg.nRx x t.rxq)
    (hqcontents : q.contents t.cfg.nRx = delivered t.cfg x t.rxq) : Fifo.Alike s.cfg.nRx p q := by
  rw [← h.cfg] at hq
  refine rxqPushed_alike h.rxq hp hq ?_
  rw [hpcontents, (delivered_alike h x).1, ← hqcontents, h.cfg]

/-- PushEvict on alike RXQs (rule R184). -/
theorem rxqPushEvict_alike (h : Twins s t) {x : Packet} (hx : x.Ok s.cfg) :
    AlikeNext (rxqPushEvict x s) (rxqPushEvict x t) := by
  obtain ⟨p, hp, hpeq, -, hpcontents⟩ := rxqPushEvict_spec h.left hx
  obtain ⟨q, hq, hqeq, -, hqcontents⟩ := rxqPushEvict_spec h.right (h.cfg ▸ hx)
  rw [hp, hq, (delivered_alike h x).2]
  exact .next ((h.alike.withRxq (rxqPushed_twins h hpeq hpcontents hqeq hqcontents)).emits _)

/-- Pop on alike TXQs takes the same frame (rule R185). -/
theorem txqTake_alike (h : Twins s t) :
    ∃ f u v, txqTake s = .next (f, u) ∧ txqTake t = .next (f, v) ∧ State.Alike u v := by
  obtain ⟨f, p, q, evs, hp, hq, halike⟩ := fifoPop_alike h.txq h.left.txq_wf h.right_txq (defaultFrame s.cfg)
  refine ⟨f, _, _, by rw [txqTake, hp, bindNext_next], by rw [txqTake, ← h.cfg, hq, bindNext_next], ?_⟩
  exact (h.alike.withTxq halike).emits evs

/-- Pop on alike RXQs takes the same packet (rule R185). -/
theorem rxqTake_alike (h : Twins s t) :
    ∃ p u v, rxqTake s = .next (p, u) ∧ rxqTake t = .next (p, v) ∧ State.Alike u v := by
  obtain ⟨x, p, q, evs, hp, hq, halike⟩ := fifoPop_alike h.rxq h.left.rxq_wf h.right_rxq (defaultPacket s.cfg)
  refine ⟨x, _, _, by rw [rxqTake, hp, bindNext_next], by rw [rxqTake, ← h.cfg, hq, bindNext_next], ?_⟩
  exact (h.alike.withRxq halike).emits evs

/-- READ and RXQ.POP on alike RXQs (rules R195, R213). -/
theorem rxqTakeResult_alike (h : Twins s t) : AlikeNext (rxqTakeResult s) (rxqTakeResult t) := by
  obtain ⟨p, u, v, hu, hv, halike⟩ := rxqTake_alike h
  rw [rxqTakeResult, rxqTakeResult, hu, hv, bindNext_next, bindNext_next, h.cfg]
  exact .next (halike.respond rfl)

/-! ## The deframer -/

/-- The guard reads BC, and TSTART in the Payload state only (rule R142). -/
theorem guardTrips_alike (h : Twins s t) (now : Time) : guardTrips now s = guardTrips now t := by
  have hbc := h.rx.bc_eq
  by_cases hpayload : 3 ≤ s.rx.bc.toNat
  · obtain ⟨-, -, htstart, -⟩ := h.rx.begun (by omega)
    have helapsed : elapsed now s = elapsed now t := by rw [elapsed, elapsed, htstart, h.cfg]
    simp only [guardTrips, inPayload, lenTrip, timedOut, helapsed, hbc, h.cfg]
  · rw [guardTrips_of_header (by omega), guardTrips_of_header (by rw [← hbc]; omega)]

/-- The guard leaves twins (rule R142). -/
theorem Twins.rxGuard (h : Twins s t) (now : Time) : Twins (rxGuard now s) (rxGuard now t) := by
  refine ⟨h.left.rxGuard now, h.right.rxGuard now, ?_⟩
  have htrip := guardTrips_alike h now
  simp only [Machine.rxGuard, h.left.lenTrip, h.right.lenTrip, htrip]
  split
  · exact (h.alike.emit _).withRx (.of_idle rfl rfl)
  · exact h.alike

/-- The Idle rule on twins (rule R144). -/
theorem idleRule_alike (h : Twins s t) (b : Byte) (now : Time) : State.Alike (idleRule b now s) (idleRule b now t) := by
  unfold idleRule
  rw [h.cfg]
  split
  · exact h.alike.withRx ⟨rfl, fun _ => ⟨rfl, rfl, rfl, rfl⟩, by simp, by simp⟩
  · exact h.alike.emit _

/-- The Length rule on twins (rule R145). -/
theorem lengthRule_alike (h : Twins s t) (hbc : s.rx.bc = 1#8) (b : Byte) :
    State.Alike (lengthRule b s) (lengthRule b t) :=
  h.alike.withRx ⟨rfl, fun _ => h.rx.2.1 (by rw [hbc]; decide), fun _ => rfl,
    fun h3 => absurd h3 (show ¬ 3 ≤ (2#8).toNat by decide)⟩

/-- The Id rule on twins (rule R146). -/
theorem idRule_alike (h : Twins s t) (hbc : s.rx.bc = 2#8) (b : Byte) : State.Alike (idRule b s) (idRule b t) :=
  h.alike.withRx ⟨rfl, fun _ => h.rx.2.1 (by rw [hbc]; decide), fun _ => h.rx.dlen_eq (by rw [hbc]; decide),
    fun _ => rfl⟩

/-- The Payload escape rule on twins (rule R147). -/
theorem escapeRule_alike (h : Twins s t) (hbc : 3 ≤ s.rx.bc.toNat) : State.Alike (escapeRule s) (escapeRule t) := by
  obtain ⟨-, hpidx, htstart, hstored⟩ := h.rx.2.1 (by omega)
  exact h.alike.withRx ⟨congrArg (· + 1#8) h.rx.bc_eq, fun _ => ⟨rfl, hpidx, htstart, hstored⟩,
    fun _ => h.rx.dlen_eq (by omega), fun _ => h.rx.did_eq hbc⟩

/-- A store on twins: the stored bytes are those before and the new one (rules R151, R152). -/
theorem storeByte_alike (h : Twins s t) (hbc : 3 ≤ s.rx.bc.toNat) (b : Byte) :
    AlikeNext (storeByte b s) (storeByte b t) := by
  have hbceq := h.rx.bc_eq
  obtain ⟨hesc, hpidx, htstart, hstored⟩ := h.rx.begun (by omega)
  rcases storeByte_spec h.left b with ⟨hroom, hs⟩ | ⟨hfull, hs⟩ <;>
    rcases storeByte_spec h.right b with ⟨hroom', ht⟩ | ⟨hfull', ht⟩
  · rw [hs, ht]
    obtain ⟨-, hindex, htake⟩ := stored_byte h.left hbc hroom b
    obtain ⟨-, hindex', htake'⟩ := stored_byte h.right (hbceq ▸ hbc) hroom' b
    refine .next (h.alike.withRx ⟨?_, fun _ => ⟨rfl, ?_, htstart, ?_⟩, fun _ => h.rx.dlen_eq (by omega),
      fun _ => h.rx.did_eq hbc⟩)
    · simp only [hbceq]
    · simp only [hpidx]
    · dsimp only
      rw [hindex, htake, hindex', htake', hstored, hpidx]
  · exact absurd (by rw [← hpidx, ← h.cfg]; exact hroom) hfull'
  · exact absurd (by rw [hpidx, h.cfg]; exact hroom') hfull
  · rw [hs, ht]
    exact .next ((h.alike.emit _).withRx (.of_idle rfl rfl))

/-- The payload bytes are among the stored ones (rules R149, R150). -/
theorem receivedPayload_alike (h : Twins s t) (hbc : 3 ≤ s.rx.bc.toNat) : receivedPayload s = receivedPayload t := by
  obtain ⟨-, hpidx, -, hstored⟩ := h.rx.begun (by omega)
  have htake (d : Deframer) (k : Nat) : d.pbuf.take (k - 1) = (d.pbuf.take k).take (k - 1) := by
    rw [List.take_take, Nat.min_eq_left (Nat.sub_le _ _)]
  rw [receivedPayload, receivedPayload, ← hpidx, htake s.rx, htake t.rx, hstored]

/-- The packet of a frame is made of what twins share (rule R150). -/
theorem receivedPacket_alike (h : Twins s t) (hbc : 3 ≤ s.rx.bc.toNat) : receivedPacket s = receivedPacket t := by
  obtain ⟨-, hpidx, -, -⟩ := h.rx.begun (by omega)
  simp only [receivedPacket, h.rx.did_eq hbc, hpidx, h.cfg, receivedPayload_alike h hbc]

/-- Frame validity reads what twins share (rule R149). -/
theorem frameValid_alike (h : Twins s t) (hbc : 3 ≤ s.rx.bc.toNat) : frameValid s = frameValid t := by
  obtain ⟨-, hpidx, -, hstored⟩ := h.rx.begun (by omega)
  have hlength : lengthMatches s = lengthMatches t := by
    simp only [lengthMatches, h.rx.bc_eq, h.rx.dlen_eq (show 2 ≤ s.rx.bc.toNat by omega)]
  rcases Nat.eq_zero_or_pos s.rx.pidx.toNat with hzero | hpos
  · simp [frameValid, ← hpidx, hzero]
  · have hlast (d : Deframer) : d.pbuf[s.rx.pidx.toNat - 1]? = (d.pbuf.take s.rx.pidx.toNat)[s.rx.pidx.toNat - 1]? :=
      (List.getElem?_take_of_lt (by omega)).symm
    simp only [frameValid, ← hpidx, hlength, receivedPayload_alike h hbc]
    rw [hlast s.rx, hlast t.rx, hstored]

/-- The Payload end rule on twins (rule R148). -/
theorem endRule_alike (h : Twins s t) (hbc : 3 ≤ s.rx.bc.toNat) : AlikeNext (endRule s) (endRule t) := by
  have hvalid := frameValid_alike h hbc
  have hpacket := receivedPacket_alike h hbc
  have hbc' : 3 ≤ t.rx.bc.toNat := h.rx.bc_eq ▸ hbc
  have hidle : State.Alike (s.withRx s.rx.idle) (t.withRx t.rx.idle) := h.alike.withRx (.of_idle rfl rfl)
  rcases endRule_spec h.left hbc with ⟨hs, p, hp, -, hpcontents, hends⟩ | ⟨hs, hends⟩ <;>
    rcases endRule_spec h.right hbc' with ⟨ht, q, hq, -, hqcontents, hendt⟩ | ⟨ht, hendt⟩
  · rw [hends, hendt, (delivered_alike h (receivedPacket s)).2]
    rw [← hpacket] at hq hqcontents
    exact .next ((hidle.withRxq (rxqPushed_twins h hp hpcontents hq hqcontents)).emits _)
  · rw [hs, ht] at hvalid; cases hvalid
  · rw [hs, ht] at hvalid; cases hvalid
  · obtain ⟨-, hpidx, -, -⟩ := h.rx.begun (by omega)
    rw [hends, hendt, hpidx, h.rx.bc_eq, h.rx.dlen_eq (by omega)]
    exact .next (hidle.emit _)

/-- Classifying a byte on twins (rule R155). -/
theorem classify_alike (h : Twins s t) (b : Byte) (now : Time) : AlikeNext (classify b now s) (classify b now t) := by
  have hbceq := h.rx.bc_eq
  rcases bc_cases s.rx.bc with hbc | hbc | hbc | hbc
  · rw [classify_of_idle hbc, classify_of_idle (hbceq ▸ hbc)]
    exact .next (idleRule_alike h b now)
  · rw [classify_of_length hbc, classify_of_length (hbceq ▸ hbc)]
    exact .next (lengthRule_alike h hbc b)
  · rw [classify_of_id hbc, classify_of_id (hbceq ▸ hbc)]
    exact .next (idRule_alike h hbc b)
  · obtain ⟨hesc, -⟩ := h.rx.begun (by omega)
    rw [classify_of_payload hbc, classify_of_payload (hbceq ▸ hbc), hesc, h.cfg]
    split
    · exact storeByte_alike h hbc b
    split
    · exact .next (escapeRule_alike h hbc)
    split
    · exact endRule_alike h hbc
    · exact storeByte_alike h hbc b

/-- A byte presented to twins (rule R155). -/
theorem rxStep_alike (h : Twins s t) (b : Byte) (now : Time) : AlikeNext (rxStep b now s) (rxStep b now t) :=
  classify_alike (h.rxGuard now) b now

/-! ## SERVICE -/

/-- A byte and a clock reading taken from twins: the same reading, and twins after it (rules R215, R217). -/
theorem Twins.sampleNow (h : Twins s t) (rest : List Byte) :
    (sampleNow (s.withChIn rest)).1 = (sampleNow (t.withChIn rest)).1 ∧
      Twins (sampleNow (s.withChIn rest)).2 (sampleNow (t.withChIn rest)).2 := by
  have hsame : (Machine.sampleNow (s.withChIn rest)).1 = (Machine.sampleNow (t.withChIn rest)).1 ∧
      State.Alike (Machine.sampleNow (s.withChIn rest)).2 (Machine.sampleNow (t.withChIn rest)).2 := by
    have halike := h.alike.withChIn rest
    obtain ⟨hclock, hdrawn⟩ := halike.clock_eq
    unfold Machine.sampleNow clockNow
    rw [← halike.1, ← hclock, ← hdrawn]
    split
    · split <;> exact ⟨rfl, halike.withClock _ _⟩
    · exact ⟨rfl, halike⟩
  exact ⟨hsame.1, h.left.sampleNow rest, h.right.sampleNow rest, hsame.2⟩

/-- The read loop on twins (rule R215). -/
theorem readLoop_alike (n : Nat) (h : Twins s t) : AlikeNext (readLoop n s) (readLoop n t) := by
  induction n generalizing s t with
  | zero => exact .next h.alike
  | succ n ih =>
    have hchIn := h.alike.chIn_eq
    unfold readLoop
    rw [← hchIn]
    split
    · exact .next h.alike
    next b rest _ =>
      obtain ⟨hnow, hread⟩ := h.sampleNow rest
      have hwidth := sampleNow_lt (s.withChIn rest)
      obtain ⟨u, v, hu, hv, huv⟩ := (rxStep_alike hread b (sampleNow (s.withChIn rest)).1).twins
        (rxStep_inv hread.left b hwidth) (rxStep_inv hread.right b (hread.cfg ▸ hwidth))
      simp only [hu, ← hnow, hv, bindNext_next]
      exact ih huv

/-- The send step on twins (rule R216). -/
theorem sendStep_alike (h : Twins s t) : AlikeNext (sendStep s) (sendStep t) := by
  have hcount := h.txq.count_eq
  unfold sendStep
  rw [← hcount]
  split
  · obtain ⟨f, u, v, hu, hv, halike⟩ := txqTake_alike h
    rw [hu, hv, bindNext_next, bindNext_next, chWrite, chWrite, halike.chOut_eq]
    exact .next (halike.withChOut _)
  · exact .next h.alike

/-- SERVICE on twins (rule R214). -/
theorem execService_alike (h : Twins s t) : AlikeNext (exec .service s) (exec .service t) := by
  obtain ⟨u, v, hu, hv, huv⟩ := (readLoop_alike s.cfg.bpt h).twins (readLoop_inv _ h.left) (readLoop_inv _ h.right)
  rw [exec, exec, execService, execService, ← h.cfg, hu, hv, bindNext_next, bindNext_next]
  exact (sendStep_alike huv).done

/-! ## A step -/

/-- An instruction on twins. -/
theorem exec_alike (h : Twins s t) {i : Instr} (hwf : i.wellFormed s.cfg = true) : AlikeNext (exec i s) (exec i t) := by
  cases i with
  | nop => exact .next h.alike.done
  | available =>
    rw [exec_available, exec_available, rxAvailable, rxAvailable, h.rxq.count_eq, h.cfg]
    exact .next (h.alike.respond rfl)
  | crc8 slen sbytes =>
    rw [exec_crc8, exec_crc8, h.cfg]
    exact .next (h.alike.respond rfl)
  | crc8Step acc data =>
    rw [exec_crc8Step, exec_crc8Step, h.cfg]
    exact .next (h.alike.respond rfl)
  | txqCount =>
    rw [exec_txqCount, exec_txqCount, h.txq.count_eq, h.cfg]
    exact .next (h.alike.respond rfl)
  | rxqCount =>
    rw [exec_rxqCount, exec_rxqCount, h.rxq.count_eq, h.cfg]
    exact .next (h.alike.respond rfl)
  | txqClear => exact .next (h.alike.withTxq (fifoClear_alike _ _ _)).done
  | rxqClear => exact .next (h.alike.withRxq (fifoClear_alike _ _ _)).done
  | send id plen payload =>
    simp only [exec, execSend, ← h.cfg]
    split
    · exact .next (h.alike.emit _).done
    next f hf =>
      obtain ⟨hle, rfl⟩ := encodeFrame_eq_some_iff.1 hf
      exact (txqPushDrop_alike h (packetFrame_ok h.left.1 id hle)).done
  | encode id plen payload =>
    simp only [exec, execEncode, ← h.cfg]
    split
    · exact .next ((h.alike.emit _).respond rfl)
    · exact .next (h.alike.respond rfl)
  | rxStep b now => exact (rxStep_alike h b now).done
  | txqPush f =>
    have hfits : f.Fits s.cfg := by simpa [Instr.wellFormed] using hwf
    simp only [exec, execTxqPush, ← h.cfg]
    split
    · exact .next h.alike.illegalCommand
    next hle => exact (txqPushDrop_alike h ⟨hfits, Nat.not_lt.1 hle⟩).done
  | rxqPush p =>
    have hfits : p.Fits s.cfg := by simpa [Instr.wellFormed] using hwf
    simp only [exec, execRxqPush, ← h.cfg]
    split
    · exact .next h.alike.illegalCommand
    next hle => exact (rxqPushEvict_alike h ⟨hfits, Nat.not_lt.1 hle⟩).done
  | txqPop =>
    obtain ⟨f, u, v, hu, hv, halike⟩ := txqTake_alike h
    rw [exec_txqPop hu, exec_txqPop hv, h.cfg]
    exact .next (halike.respond rfl)
  | rxqPop | read => exact rxqTakeResult_alike h
  | txqPeek =>
    obtain ⟨f, hs, ht⟩ := fifoPeek_alike h.txq h.left.txq_wf h.right_txq (defaultFrame s.cfg)
    rw [exec_txqPeek hs, exec_txqPeek (h.cfg ▸ ht), h.cfg]
    exact .next (h.alike.respond rfl)
  | rxqPeek =>
    obtain ⟨p, hs, ht⟩ := fifoPeek_alike h.rxq h.left.rxq_wf h.right_rxq (defaultPacket s.cfg)
    rw [exec_rxqPeek hs, exec_rxqPeek (h.cfg ▸ ht), h.cfg]
    exact .next (h.alike.respond rfl)
  | service => exact execService_alike h

/-- Reset leaves alike states (rule R260). -/
theorem resetBlock_alike (h : State.Alike s t) : State.Alike (resetBlock s) (resetBlock t) := by
  rw [resetBlock, resetBlock, ← h.1]
  exact ((h.withRx (.refl _)).withTxq (.refl _ _)).withRxq (.refl _ _)

/-- An input on twins. -/
theorem runInput_alike (h : Twins s t) (inp : Input) : AlikeNext (runInput inp s) (runInput inp t) := by
  cases inp with
  | command c =>
    rw [runInput, runInput]
    cases hd : decode s.cfg c with
    | ok i =>
      rw [runCommand_ok hd, runCommand_ok (h.cfg ▸ hd)]
      obtain ⟨k, -, rfl⟩ := decode_eq_ok hd
      exact exec_alike h (withOperands_wellFormed s.cfg c.operands k)
    | error r =>
      rw [runCommand_error hd, runCommand_error (h.cfg ▸ hd)]
      exact .next h.alike.illegalCommand
  | reset => exact .next (resetBlock_alike h.alike)
  | channel bytes =>
    have hchIn := h.alike.chIn_eq
    rw [runInput, runInput, hchIn]
    exact .next (h.alike.withChIn _)
  | clock samples =>
    obtain ⟨hclock, hdrawn⟩ := h.alike.clock_eq
    rw [runInput, runInput, hclock, hdrawn]
    exact .next (h.alike.withClock _ _)

/-- A step of twins: they take the same input. -/
theorem step_alike (h : Twins s t) : AlikeNext (step s) (step t) := by
  have hinputs := h.alike.inputs_eq
  rcases step_cases h.left.1 with ⟨hnil, hs⟩ | ⟨inp, rest, hcons, hs⟩
  · rw [hs, step_of_legal h.right.1, runNextInput_nil (hinputs ▸ hnil)]
    exact .next h.alike
  · rw [hs, step_of_inputs h.right.1 (hinputs ▸ hcons)]
    exact runInput_alike (h.withInputs rest) inp

end

/-- Settles O59. -/
theorem unspecifiedStateIsUnobservable : Obligations.UnspecifiedStateIsUnobservable := by
  intro s t s' hs ht halike h
  obtain ⟨u, v, hu, hv, huv⟩ := step_alike ⟨hs, ht, halike⟩
  cases hu.symm.trans h
  exact ⟨v, hv, huv⟩

end Sys2Proof.Machine
